-- ==== Sys2Proof/Word.lean ====
section
/-! DEFINITION. The word types of the block: the command word, the pc operand, the counter, the fault code
and the response (spec/10_state.md, spec/30_encoding.md). Types only: every operation on them stands in
Decode.lean or under Machine/. -/

namespace Sys2Proof

/-- A command word: 40 bits, bit 0 the least significant (R80). -/
abbrev Cmd := BitVec 40

/-- The pc operand of PREDICT and TRAIN: `PC_W = 32` bits (R7, R84). -/
abbrev Pc := BitVec 32

/-- A saturating counter: a 2-bit unsigned register with exactly four states (R37). -/
abbrev Counter := BitVec 2

/-- The 3-bit code held in FAULT_CODE and returned in the FAULT field (R33, R87). -/
abbrev FaultBits := BitVec 3

/-- The 4-bit response of a command (R87). -/
abbrev Response := BitVec 4

end Sys2Proof
end

