-- ==== Sys2Proof/AsmSyntax.lean ====
section
/-! DEFINITION. The textual command stream as data: one constructor for each line form of R89 and R90. The numbers are
the naturals that were written, so that a value too large for its field is a term of its own, which
WellFormed.lean refuses ("An assembler rejects any larger value"). -/

namespace Sys2Proof

/-- One line of the textual command stream (R89), pseudo-instructions included (R90). -/
inductive AsmLine where
  | initStatic
  | initGshare
  | initTournament
  | initCustom
  /-- `init perceptron`, a pseudo-instruction for `init custom` (R90). -/
  | initPerceptron
  | predict (pc : Nat)
  | train (pc : Nat) (outcome : Bool)
  /-- `step <pc>, T|N`, a pseudo-instruction for `predict <pc>` and then `train <pc>, T|N` (R90). -/
  | step (pc : Nat) (outcome : Bool)
  /-- `.cmd <40-bit value>`: the raw word, which may be RESERVED (R89). -/
  | raw (word : Nat)
deriving DecidableEq, Repr

end Sys2Proof
end

