-- ==== Sys2Proof/Syntax.lean ====
section
/-! DEFINITION. The commands of the block: one constructor for each row of spec/opcode_table.json (R81, R82, R86). -/

namespace Sys2Proof

/-- A decoded command (R85, R86), one constructor per row of the opcode table. -/
inductive Instr where
  /-- `init static`, the word 0xC000000000 (row INIT.STATIC). -/
  | initStatic
  /-- `init gshare`, the word 0xD000000000 (row INIT.GSHARE). -/
  | initGshare
  /-- `init tournament`, the word 0xE000000000 (row INIT.TOURNAMENT). -/
  | initTournament
  /-- `init custom`, the word 0xF000000000 (row INIT.CUSTOM). Custom is the perceptron (D4, C8). -/
  | initCustom
  /-- `predict <pc>` (row PREDICT). -/
  | predict (pc : Pc)
  /-- `train <pc>, T|N` (row TRAIN); the outcome is true for Taken (R19, R83). -/
  | train (pc : Pc) (outcome : Bool)
deriving DecidableEq, Repr

end Sys2Proof
end

