-- ==== Sys2Proof/WellFormed.lean ====
section
/-! DEFINITION. Well-formedness. A decoded command needs no check: the types of its fields hold exactly the values the
encoding admits (R80 to R84). A line of the textual command stream is checked: `<pc>` is at most
2^32 - 1, and the value of `.cmd` has 40 bits (R89). -/

namespace Sys2Proof

/-- Every decoded command is well formed: a 32-bit pc has no validity constraint (R65, R84) and an outcome
is one bit (R83). -/
def Instr.wellFormed : Instr → Bool
  | .initStatic => true
  | .initGshare => true
  | .initTournament => true
  | .initCustom => true
  | .predict _ => true
  | .train _ _ => true

/-- A written pc is a number from 0 to 2^32 - 1 (R89). -/
def pcFits (pc : Nat) : Bool := decide (pc < 2 ^ 32)

/-- A written `.cmd` value has 40 bits (R89). -/
def wordFits (word : Nat) : Bool := decide (word < 2 ^ 40)

/-- The check an assembler makes of one line (R89). -/
def AsmLine.wellFormed : AsmLine → Bool
  | .initStatic => true
  | .initGshare => true
  | .initTournament => true
  | .initCustom => true
  | .initPerceptron => true
  | .predict pc => pcFits pc
  | .train pc _ => pcFits pc
  | .step pc _ => pcFits pc
  | .raw word => wordFits word

end Sys2Proof
end

