-- ==== Sys2Proof/Decode.lean ====
section
/-! DEFINITION. Decoding and encoding of the 40-bit command word (spec/30_encoding.md, R80 to R88). Decoding is total over
all 2^40 words (R85), does not look at the state (R88), and rejects a RESERVED word with a name that says
which line of R85's list it falls under. -/

namespace Sys2Proof

/-- OP, bits 39:38 (R80). -/
def Cmd.op (c : Cmd) : BitVec 2 := c.extractLsb' 38 2
/-- MODE, bits 37:36 (R80). -/
def Cmd.mode (c : Cmd) : BitVec 2 := c.extractLsb' 36 2
/-- OUTCOME, bit 35 (R80, R83). -/
def Cmd.outcome (c : Cmd) : Bool := c.getLsbD 35
/-- RSV, bits 34:32 (R80). -/
def Cmd.rsv (c : Cmd) : BitVec 3 := c.extractLsb' 32 3
/-- PC, bits 31:0 (R80, R84). -/
def Cmd.pc (c : Cmd) : Pc := c.extractLsb' 0 32

/-- Why a word is RESERVED: the lines of R85's list. A word under several lines takes the first one here.
DESIGN CHOICE (log 15), safe: the spec gives all of them the one fault RESERVED_ENCODING. -/
inductive DecodeError where
  | opReserved
  | rsvNonzero
  | predictWithMode
  | predictWithOutcome
  | trainWithMode
  | initWithOutcome
  | initWithPc
deriving DecidableEq, Repr

/-- The line of R85's list that a RESERVED word falls under. -/
def reservedReason (c : Cmd) : DecodeError :=
  if c.op = 0b00#2 then .opReserved
  else if c.rsv ≠ 0 then .rsvNonzero
  else if c.op = 0b01#2 then (if c.mode ≠ 0 then .predictWithMode else .predictWithOutcome)
  else if c.op = 0b10#2 then .trainWithMode
  else if c.outcome then .initWithOutcome
  else .initWithPc

/-- The INIT command that a MODE field selects (R82). -/
def initOfMode (md : BitVec 2) : Instr :=
  if md = 0 then .initStatic
  else if md = 1 then .initGshare
  else if md = 2 then .initTournament
  else .initCustom

/-- `decode(c)` (R85). -/
def decode (c : Cmd) : Except DecodeError Instr :=
  if c.op = 0b01#2 ∧ c.mode = 0 ∧ c.outcome = false ∧ c.rsv = 0 then .ok (.predict c.pc)
  else if c.op = 0b10#2 ∧ c.mode = 0 ∧ c.rsv = 0 then .ok (.train c.pc c.outcome)
  else if c.op = 0b11#2 ∧ c.outcome = false ∧ c.rsv = 0 ∧ c.pc = 0 then .ok (initOfMode c.mode)
  else .error (reservedReason c)

/-- A command word from its fields, in the order of R80's table. -/
def packWord (op md : BitVec 2) (o : Bool) (pc : Pc) : Cmd :=
  op ++ md ++ BitVec.ofBool o ++ 0#3 ++ pc

/-- The word of a command (R80 to R84, R86). -/
def encode : Instr → Cmd
  | .initStatic => packWord 0b11 0b00 false 0
  | .initGshare => packWord 0b11 0b01 false 0
  | .initTournament => packWord 0b11 0b10 false 0
  | .initCustom => packWord 0b11 0b11 false 0
  | .predict pc => packWord 0b01 0b00 false pc
  | .train pc o => packWord 0b10 0b00 o pc

/-- The command that an opcode-table word stands for: `w` has `nbits` bits, and the bits of the 40-bit word
above them are zero. There is no other length than 40 bits (R80), so a number that needs more is none. -/
def decodeTableWord (nbits w : Nat) : Option Instr :=
  let v := w % 2 ^ nbits
  if v < 2 ^ 40 then (decode (BitVec.ofNat 40 v)).toOption else none

end Sys2Proof
end

