-- ==== Sys2Proof/Config.lean ====
section
/-! DEFINITION. The configuration record `cfg` (R36; R8 to R17; R217 for the capacity): constant for a run, supplied
before hardware reset is released. It is plain data held in State, so that every statement holds for every
value of every OPEN parameter. -/

namespace Sys2Proof

/-- The configuration record `cfg` (R36). Field names are the spec's: `wG` is `W_g`, and so on. The values
are natural numbers as supplied; INIT checks their ranges (R217), so illegal ones can be written down. -/
structure Config where
  /-- `W_g`: width of the global history and log2 of the tables it indexes (R8). -/
  wG : Nat
  /-- `W_l`: width of a local history and log2 of the local PHT (R9). -/
  wL : Nat
  /-- `W_pc`: number of low pc bits that index the local history table (R10). -/
  wPc : Nat
  /-- `P_H`: the perceptron history length, the source's HISTORY_LEN and HEIGHT (R11, C2). -/
  pH : Nat
  /-- `P_N`: the number of rows of the weight matrix (R12). -/
  pN : Nat
  /-- `P_MUL`: the multiplier of the perceptron hash (R13). -/
  pMul : Nat
  /-- `P_WB`: the bit width of a signed weight (R14). -/
  pWb : Nat
  /-- The explicit override of `P_THETA`, none when the threshold is computed from `P_H` (R15). It is an
  integer because R217 checks that an override is not negative. -/
  pTheta : Option Int
  /-- `P_HASH_WRAP`: the hash product is reduced modulo 2^32 first (R16). -/
  pHashWrap : Bool
  /-- `cfg.capacity` (R217, D6): none is unbounded, otherwise the number of storage bits that the block was
  built with. DESIGN CHOICE (log 9), unsafe: the spec gives the capacity no unit. -/
  capacity : Option Nat
deriving DecidableEq, Repr

/-- A configuration with the given OPEN widths and the spec's default for every parameter that has one
(R12 to R16; spec/95_test_vectors.md, Conventions). -/
def Config.withWidths (wG wL wPc pH : Nat) : Config :=
  { wG := wG, wL := wL, wPc := wPc, pH := pH, pN := 426, pMul := 19, pWb := 8,
    pTheta := none, pHashWrap := true, capacity := none }

/-- The configuration that `State.reset` holds. `W_g = 4` is the one width the source's example names (R8);
`W_l = W_pc = 2` and `P_H = 2` are those of programs P2 and P3 of spec/95_test_vectors.md.
DESIGN CHOICE (log 3), unsafe: R8 to R11 leave the four widths OPEN. -/
def Config.atReset : Config := Config.withWidths 4 2 2 2

end Sys2Proof
end

