-- ==== Sys2Proof/Machine/State.lean ====
section
/-! DEFINITION. The state of the block as plain data (spec/10_state.md, spec/70_reset_and_hazards.md R260 and R261), the
reasons a step can stop, and the state after hardware reset. -/

namespace Sys2Proof.Machine

/-- STATUS, the life-cycle state (R32); the value 3 is never written, so it is no constructor. -/
inductive Status where
  | uninit
  | ready
  | faulted
deriving DecidableEq, Repr

/-- MODE, the predictor that INIT selects (R35). -/
inductive Mode where
  | static
  | gshare
  | tournament
  | custom
deriving DecidableEq, Repr

/-- The five fault causes of R230. -/
inductive FaultCause where
  | reservedEncoding
  | configInvalid
  | notInitialized
  | reinit
  | orderViolation
deriving DecidableEq, Repr

/-- A table: its entries as (index, value) pairs. The canonical form (`Table.wf` of Machine/Ops.lean) has the
indices strictly rising and lists no entry that equals the table's initial value, which is what an unlisted
index reads as (log 5). -/
abbrev Table (α : Type) := List (Nat × α)

/-- What a table's accesses need beside its entries: how many entries it has (R61) and the value that INIT
gives every entry. -/
structure TableShape (α : Type) where
  size : Nat
  init : α
deriving DecidableEq, Repr

/-- One row of the weight matrix: the bias weight first, then one weight for each history position (R45). -/
abbrev WeightRow := List Int

/-- `Gshare(GHR, PHT)` (R38, R39). -/
structure Gshare where
  /-- GHR, an unsigned W_g-bit number (R38). -/
  ghr : Nat
  pht : Table Counter
deriving DecidableEq, Repr

/-- `Tournament(GHR, LHT, LPHT, GPHT, CHOOSER)` (R40 to R44). -/
structure Tournament where
  /-- GHR, an unsigned W_g-bit number (R40). -/
  ghr : Nat
  /-- LHT, whose entries are unsigned W_l-bit numbers (R41). -/
  lht : Table Nat
  lpht : Table Counter
  gpht : Table Counter
  chooser : Table Counter
deriving DecidableEq, Repr

/-- `Perceptron(W, HIST, LAST_PRED, NEEDS_TRAIN, SCR_VALID, SCR_PC)` (R45 to R47), with the constant P_THETA
that INIT leaves (R48; DEDUCED, log 13). -/
structure Perceptron where
  w : Table WeightRow
  /-- HIST, the most recent outcome first (R46). -/
  hist : List Bool
  lastPred : Bool
  needsTrain : Bool
  scrValid : Bool
  scrPc : Pc
  theta : Int
deriving DecidableEq, Repr

/-- MODE and `M` (R30, R35): `M` is the state of the selected mode only, so the constructor is the MODE
register. `absent` is the spec's own "no value" before INIT (R30, R261; DEDUCED, log 4). -/
inductive Predictor where
  | absent
  | static
  | gshare (g : Gshare)
  | tournament (t : Tournament)
  | perceptron (p : Perceptron)
deriving DecidableEq, Repr

/-- What reaches the block from outside: a command word, or an assertion of hardware reset with the
configuration that is supplied under it (R260, R262). -/
inductive Input where
  | command (c : Cmd)
  | hardwareReset (cfg : Config)
deriving DecidableEq, Repr

/-- The state of one block (R30, R36), with the two sides of its command port. -/
structure State where
  /-- The configuration record, constant between hardware resets (R17, R36). -/
  cfg : Config
  /-- STATUS (R32). -/
  status : Status
  /-- FAULT_CODE (R33). -/
  faultCode : FaultBits
  /-- FAULT_CMD (R34). -/
  faultCmd : Cmd
  /-- MODE and M (R30, R35). -/
  m : Predictor
  /-- The response of the last command served since hardware reset, none before the first (R87).
  DESIGN CHOICE (log 2), safe: the spec's response leaves the block with its command. -/
  response : Option Response
  /-- The inputs the harness has issued and the block has not served yet, the first to be served first
  (R69). DESIGN CHOICE (log 1), safe. -/
  port : List Input
deriving DecidableEq, Repr

/-- Reasons for the machine to stop with a fault: there are none. Each of the spec's faults (R230) has an
entry that the spec describes (R240), so it is a next state with STATUS = FAULTED (log 6). -/
inductive Fault
deriving DecidableEq, Repr

/-- Reasons for which the model gives no meaning. -/
inductive Refusal where
  /-- Raised by an arm of Dispatch.lean for an instruction that has no meaning yet. Safe. -/
  | notModelled (mnemonic : String)
  /-- Raised by PREDICT and TRAIN when STATUS = READY and M holds no value: 93 item 14 asks to refuse such
  a read. No state that a run reaches raises it. Safe (log 7). -/
  | noValue
  /-- Raised by PREDICT and TRAIN when an index falls outside its table, or a weight row does not fit the
  history window: 93 item 1 asks to refuse, never to pick an entry. No state that a run reaches raises it.
  Safe (log 8). -/
  | indexOutOfRange
deriving DecidableEq, Repr

/-- The state that hardware reset leaves under the configuration `cfg` (R260, R261): UNINIT, no fault, MODE
and M without a value; the port is empty and has answered nothing. -/
def State.resetWith (cfg : Config) : State :=
  { cfg := cfg, status := .uninit, faultCode := 0, faultCmd := 0, m := .absent, response := none, port := [] }

/-- The machine right after reset. Only `cfg` is not the spec's (DESIGN CHOICE, log 3). -/
def State.reset : State := State.resetWith Config.atReset

end Sys2Proof.Machine
end

