-- ==== Sys2Proof/Machine/Ops.lean ====
section
/-! DEFINITION. The shared operations: the notation of spec/00_scope.md (mask, sat), the table primitives TabRead and
TabWrite (R21) with the shape of each table (R61), the response (R87), fault entry (R22, R240), the gate that a
FAULTED block puts before every command (R241), and hardware reset, the only return from a fault (R242, R260). -/

namespace Sys2Proof.Machine

/-- The outcome of a command or a step. -/
abbrev Result := Host.Outcome State Fault Refusal

/-- `mask(w) = 2^w - 1` (R18). -/
def mask (w : Nat) : Nat := 2 ^ w - 1

/-- `sat(v, lo, hi) = min(hi, max(lo, v))` on integers (R23). -/
def sat (v lo hi : Int) : Int := min hi (max lo v)

/-! ### MODE -/

/-- The MODE register (R35): the constructor of `M`, and no value before INIT. -/
def Predictor.mode : Predictor → Option Mode
  | .absent => none
  | .static => some .static
  | .gshare _ => some .gshare
  | .tournament _ => some .tournament
  | .perceptron _ => some .custom

/-- The MODE register of a state (R35). -/
def State.mode (s : State) : Option Mode := s.m.mode

/-- The 2-bit encoding of MODE (R35, R82). -/
def Mode.bits : Mode → BitVec 2
  | .static => 0
  | .gshare => 1
  | .tournament => 2
  | .custom => 3

/-- The 2-bit encoding of STATUS (R32). -/
def Status.bits : Status → BitVec 2
  | .uninit => 0
  | .ready => 1
  | .faulted => 2

/-! ### Tables -/

/-- The entry at an index, or `d` where the index is not listed. -/
def Table.lookup {α : Type} (d : α) : Table α → Nat → α
  | [], _ => d
  | (k, x) :: t, i => if i = k then x else Table.lookup d t i

/-- Sets the entry at an index and keeps the canonical form: indices stay rising, and the value `d` of an
unlisted index is not listed. -/
def Table.store {α : Type} [DecidableEq α] (d : α) : Table α → Nat → α → Table α
  | [], i, v => if v = d then [] else [(i, v)]
  | (k, x) :: t, i, v =>
    if i < k then (if v = d then (k, x) :: t else (i, v) :: (k, x) :: t)
    else if i = k then (if v = d then t else (i, v) :: t)
    else (k, x) :: Table.store d t i v

/-- The canonical form from index `lo` on: indices rise and stay below `size`, and no entry equals `d`. -/
def Table.wfFrom {α : Type} [DecidableEq α] (d : α) (size : Nat) : Nat → Table α → Bool
  | _, [] => true
  | lo, (k, x) :: t => decide (lo ≤ k) && decide (k < size) && decide (x ≠ d) && Table.wfFrom d size (k + 1) t

/-- The canonical form of a table of a given shape. -/
def Table.wf {α : Type} [DecidableEq α] (sh : TableShape α) (t : Table α) : Bool :=
  Table.wfFrom sh.init sh.size 0 t

/-- `TabRead(T, i)`, defined only for `0 ≤ i < size(T)` (R21). -/
def tabRead {α : Type} (sh : TableShape α) (t : Table α) (i : Nat) : Option α :=
  if i < sh.size then some (t.lookup sh.init i) else none

/-- `TabWrite(T, i, v)`, defined only for `0 ≤ i < size(T)` (R21). -/
def tabWrite {α : Type} [DecidableEq α] (sh : TableShape α) (t : Table α) (i : Nat) (v : α) : Option (Table α) :=
  if i < sh.size then some (t.store sh.init i v) else none

/-- Goes on with the entry that was read or the table that was written; where there is none, the access fell
outside the table, and the model refuses (93 item 1; log 8). -/
def inRange {β : Type} (o : Option β) (k : β → Result) : Result :=
  match o with
  | some b => k b
  | none => .refused .indexOutOfRange

/-- PHT: 2^W_g counters, WeaklyNotTaken after INIT (R39, R61). -/
def phtShape (cfg : Config) : TableShape Counter := ⟨2 ^ cfg.wG, 1⟩
/-- GPHT: 2^W_g counters, WeaklyNotTaken after INIT (R43, R61). -/
def gphtShape (cfg : Config) : TableShape Counter := ⟨2 ^ cfg.wG, 1⟩
/-- CHOOSER: 2^W_g counters, 2 after INIT (R44, R61). -/
def chooserShape (cfg : Config) : TableShape Counter := ⟨2 ^ cfg.wG, 2⟩
/-- LHT: 2^W_pc local histories, 0 after INIT (R41, R61). -/
def lhtShape (cfg : Config) : TableShape Nat := ⟨2 ^ cfg.wPc, 0⟩
/-- LPHT: 2^W_l counters, WeaklyNotTaken after INIT (R42, R61). -/
def lphtShape (cfg : Config) : TableShape Counter := ⟨2 ^ cfg.wL, 1⟩
/-- W: P_N rows of P_H + 1 weights, all 0 after INIT (R45, R61). -/
def wShape (cfg : Config) : TableShape WeightRow := ⟨cfg.pN, List.replicate (cfg.pH + 1) 0⟩

/-! ### Response, faults and reset -/

/-- A response word: PRED in bit 0, FAULT in bits 3:1 (R87). -/
def responseWord (pred : Bool) (code : FaultBits) : Response := code ++ BitVec.ofBool pred

/-- PRED, bit 0 of a response (R87). -/
def Response.pred (r : Response) : Bool := r.getLsbD 0

/-- FAULT, bits 3:1 of a response (R87). -/
def Response.fault (r : Response) : FaultBits := r.extractLsb' 1 3

/-- An accepted command answers FAULT = 0 and the given PRED (R87, R210). -/
def State.accept (pred : Bool) (s : State) : State := { s with response := some (responseWord pred 0) }

/-- The code numbers of R230. -/
def FaultCause.code : FaultCause → FaultBits
  | .reservedEncoding => 1
  | .configInvalid => 2
  | .notInitialized => 3
  | .reinit => 4
  | .orderViolation => 5

/-- Fault entry, `raise Fault(code, c)` (R22, R240): STATUS, FAULT_CODE and FAULT_CMD are written, the response
carries the code, and nothing else changes (R239). -/
def State.raise (cause : FaultCause) (c : Cmd) (s : State) : State :=
  { s with
    status := .faulted, faultCode := cause.code, faultCmd := c, response := some (responseWord false cause.code) }

/-- A command while FAULTED: ignored, answered with the stored code (R241). -/
def State.ignore (s : State) : State := { s with response := some (responseWord false s.faultCode) }

/-- Puts R210's first check before a command: a FAULTED block ignores it (R238 item 1, R241). -/
def unlessFaulted (s : State) (k : Result) : Result :=
  if s.status = .faulted then .next s.ignore else k

/-- Hardware reset under a configuration (R260): the only way out of FAULTED (R242). Inputs that the harness
issues after the reset are still to be served. DESIGN CHOICE (log 10), safe. -/
def State.hardwareReset (cfg : Config) (s : State) : State := { State.resetWith cfg with port := s.port }

end Sys2Proof.Machine
end

