-- ==== Sys2Proof/Machine/Counters.lean ====
section
/-! DEFINITION. The saturating counter state machine and the history shifters (spec/40_primitives.md sections 1 and 2,
R100 to R105). -/

namespace Sys2Proof.Machine

/-- `inc2(c) = sat(c + 1, 0, 3)` (R23). -/
def inc2 (c : Counter) : Counter := BitVec.ofInt 2 (sat (c.toNat + 1) 0 3)

/-- `dec2(c) = sat(c - 1, 0, 3)` (R23). -/
def dec2 (c : Counter) : Counter := BitVec.ofInt 2 (sat (c.toNat - 1) 0 3)

/-- `ctr_read(c)`: Taken for c ≥ 2 (R100). -/
def ctrRead (c : Counter) : Bool := decide (2 ≤ c.toNat)

/-- `ctr_bump(c, o)`: one step toward the outcome, clamped (R101). -/
def ctrBump (c : Counter) (o : Bool) : Counter := if o then inc2 c else dec2 c

/-- `hist_shift(h, o, w) = ((h << 1) | o) & mask(w)` (R104). -/
def histShift (h : Nat) (o : Bool) (w : Nat) : Nat := ((h <<< 1) ||| o.toNat) &&& mask w

/-- `window_shift(HIST, o)`: the outcome enters at the most recent position and the oldest one leaves (R105). -/
def windowShift (hist : List Bool) (o : Bool) : List Bool := (o :: hist).dropLast

/-- The window read as a number whose bit j is HIST[j] (R46, R105). -/
def windowNumber : List Bool → Nat
  | [] => 0
  | b :: hist => b.toNat + 2 * windowNumber hist

end Sys2Proof.Machine
end

