-- ==== Sys2Proof/Machine/Operands.lean ====
section
/-! DEFINITION. What the operands of PREDICT and TRAIN select: the pattern history table index hashes of
spec/40_primitives.md section 3 (R106 to R110). The pc enters each as an unsigned number by bit position, bit 0
included (R64, R65). -/

namespace Sys2Proof.Machine

/-- `gshare_idx(pc, ghr) = (pc & mask(W_g)) XOR (ghr & mask(W_g))` (R106). -/
def gshareIdx (cfg : Config) (pc : Pc) (ghr : Nat) : Nat := (pc.toNat &&& mask cfg.wG) ^^^ (ghr &&& mask cfg.wG)

/-- `tourn_gidx(ghr) = ghr & mask(W_g)`: the index of GPHT and CHOOSER (R107). -/
def tournGidx (cfg : Config) (ghr : Nat) : Nat := ghr &&& mask cfg.wG

/-- `tourn_pcidx(pc) = pc & mask(W_pc)`: the index of LHT (R108). -/
def tournPcidx (cfg : Config) (pc : Pc) : Nat := pc.toNat &&& mask cfg.wPc

/-- `tourn_lidx(e) = e & mask(W_l)`: the index of LPHT (R109). -/
def tournLidx (cfg : Config) (e : Nat) : Nat := e &&& mask cfg.wL

/-- `perc_idx(pc)`: the row of W, from the exact product or from the product modulo 2^32 (R110, R16). -/
def percIdx (cfg : Config) (pc : Pc) : Nat :=
  let p := pc.toNat * cfg.pMul
  let q := if cfg.pHashWrap then p % 2 ^ 32 else p
  q % cfg.pN

end Sys2Proof.Machine
end

