-- ==== Sys2Proof/Machine/Gshare.lean ====
section
/-! DEFINITION. Gshare mode, MODE = 1 (spec/41_gshare.md). -/

namespace Sys2Proof.Machine

/-- `gshare_init`: GHR = 0 and every counter WeaklyNotTaken (R130). No entry is listed, so every index reads as
the initial value of `phtShape`. -/
def gshareInit : Predictor := .gshare { ghr := 0, pht := [] }

/-- `gshare_predict(pc)`: reads one counter and writes nothing (R131). -/
def gsharePredict (pc : Pc) (g : Gshare) (s : State) : Result :=
  inRange (tabRead (phtShape s.cfg) g.pht (gshareIdx s.cfg pc g.ghr)) fun c =>
  .next (s.accept (ctrRead c))

/-- `gshare_train(pc, o)`: bumps the counter at the index of the old history, then moves the history (R132). -/
def gshareTrain (pc : Pc) (o : Bool) (g : Gshare) (s : State) : Result :=
  let i := gshareIdx s.cfg pc g.ghr
  inRange (tabRead (phtShape s.cfg) g.pht i) fun c =>
  inRange (tabWrite (phtShape s.cfg) g.pht i (ctrBump c o)) fun pht =>
  .next (State.accept false { s with m := .gshare { ghr := histShift g.ghr o s.cfg.wG, pht := pht } })

end Sys2Proof.Machine
end

