-- ==== Sys2Proof/Machine/Flags.lean ====
section
/-! DEFINITION. The perceptron's arithmetic and the flags it leaves (spec/40_primitives.md section 5, R114 to R116; R14, R15
and R23 for the weight bounds and the threshold). "Flags" are the scratch bits and the response fields (R24); the
response fields stand in Machine/Ops.lean. -/

namespace Sys2Proof.Machine

/-- `WMIN = -2^(P_WB-1)` (R14). -/
def wMin (cfg : Config) : Int := -(2 ^ (cfg.pWb - 1) : Int)

/-- `WMAX = 2^(P_WB-1) - 1` (R14). -/
def wMax (cfg : Config) : Int := 2 ^ (cfg.pWb - 1) - 1

/-- `satw(v) = sat(v, WMIN, WMAX)` (R23). -/
def satw (cfg : Config) (v : Int) : Int := sat v (wMin cfg) (wMax cfg)

/-- The threshold computed from P_H in exact integers, halves rounded upward (R15, D11). -/
def thetaOf (pH : Nat) : Int := ((193 * pH + 1450) / 100 : Nat)

/-- P_THETA: the override where `cfg` gives one, else the computed value (R15, R180). -/
def pTheta (cfg : Config) : Int := cfg.pTheta.getD (thetaOf cfg.pH)

/-- Adds each weight whose history bit is Taken to the sum and subtracts the others (R114). -/
def percSum : WeightRow → List Bool → Int → Int
  | wt :: ws, h :: hs, y => percSum ws hs (if h then y + wt else y - wt)
  | _, _, y => y

/-- `perc_out(row, HIST)`: the exact sum, starting from the bias weight (R114). -/
def percOut (row : WeightRow) (hist : List Bool) : Int :=
  match row with
  | bias :: ws => percSum ws hist bias
  | [] => 0

/-- One lane of `perc_update`: up where the two bits agree, down where they differ, saturating (R115). -/
def laneStep (cfg : Config) (wt : Int) (agree : Bool) : Int := satw cfg (if agree then wt + 1 else wt - 1)

/-- The lanes of the history positions (R115). -/
def percLanes (cfg : Config) (o : Bool) : WeightRow → List Bool → WeightRow
  | wt :: ws, h :: hs => laneStep cfg wt (o == h) :: percLanes cfg o ws hs
  | ws, _ => ws

/-- `perc_update(row, HIST, o)`: the bias lane follows the outcome, lane i the agreement of the outcome with
HIST[i-1] (R115). -/
def percUpdate (cfg : Config) (row : WeightRow) (hist : List Bool) (o : Bool) : WeightRow :=
  match row with
  | bias :: ws => laneStep cfg bias o :: percLanes cfg o ws hist
  | [] => []

/-- `pred` of `perc_flags(y)`: Taken for y ≥ 0 (R116). -/
def percPred (y : Int) : Bool := decide (0 ≤ y)

/-- `needs` of `perc_flags(y)`: both comparisons strict (R116). -/
def percNeeds (theta y : Int) : Bool := decide (-theta < y ∧ y < theta)

end Sys2Proof.Machine
end

