-- ==== Sys2Proof/Machine/Perceptron.lean ====
section
/-! DEFINITION. Perceptron mode, MODE = 3, Custom (spec/43_perceptron.md). -/

namespace Sys2Proof.Machine

/-- `perc_init` (R180): P_THETA, all weights 0, the window all NotTaken, the scratch cleared. No row is listed, so
every row reads as the initial value of `wShape`. -/
def percInit (cfg : Config) : Predictor :=
  .perceptron
    { w := [], hist := List.replicate cfg.pH false, lastPred := false, needsTrain := false, scrValid := false,
      scrPc := 0, theta := pTheta cfg }

/-- Reads row `r` of W. A row whose length does not fit the window is an access outside the table (log 8). -/
def readRow (cfg : Config) (p : Perceptron) (r : Nat) : Option WeightRow :=
  match tabRead (wShape cfg) p.w r with
  | some row => if row.length = p.hist.length + 1 then some row else none
  | none => none

/-- `perc_predict(pc)`: writes the scratch registers and nothing else (R181, R74). -/
def percPredict (pc : Pc) (p : Perceptron) (s : State) : Result :=
  inRange (readRow s.cfg p (percIdx s.cfg pc)) fun row =>
  let y := percOut row p.hist
  let scratch : Perceptron :=
    { p with lastPred := percPred y, needsTrain := percNeeds p.theta y, scrValid := true, scrPc := pc }
  .next (State.accept (percPred y) { s with m := .perceptron scratch })

/-- The pairing check of R182: the scratch is valid and belongs to this pc (R235). -/
def percPaired (pc : Pc) (p : Perceptron) : Bool := p.scrValid && p.scrPc == pc

/-- The training condition `t` of R182: a misprediction, or a margin below the threshold. -/
def percTrains (o : Bool) (p : Perceptron) : Bool := p.lastPred != o || p.needsTrain

/-- `perc_train(pc, o)` (R182): ORDER_VIOLATION without a matching PREDICT; otherwise the row is updated with the
old window where the training condition holds, and the window shifts on every TRAIN (C4). -/
def percTrain (pc : Pc) (o : Bool) (p : Perceptron) (s : State) : Result :=
  if percPaired pc p then
    let done (w : Table WeightRow) : Result :=
      .next (State.accept false
        { s with m := .perceptron { p with w := w, hist := windowShift p.hist o, scrValid := false } })
    if percTrains o p then
      let r := percIdx s.cfg pc
      inRange (readRow s.cfg p r) fun row =>
      inRange (tabWrite (wShape s.cfg) p.w r (percUpdate s.cfg row p.hist o)) done
    else done p.w
  else .next (s.raise .orderViolation (encode (.train pc o)))

end Sys2Proof.Machine
end

