-- ==== Sys2Proof/Machine/Static.lean ====
section
/-! DEFINITION. Static always-taken mode, MODE = 0 (spec/44_facade.md R214 and R215; R49). -/

namespace Sys2Proof.Machine

/-- `static_predict(pc)`: always Taken, whatever the pc (R214). -/
def staticPredict (_pc : Pc) (s : State) : Result := .next (s.accept true)

/-- `static_train(pc, o)`: no state change (R215). -/
def staticTrain (_pc : Pc) (_o : Bool) (s : State) : Result := .next (s.accept false)

end Sys2Proof.Machine
end

