-- ==== Sys2Proof/Machine/Multiplexer.lean ====
section
/-! DEFINITION. The chooser multiplexer and the chooser's update (spec/40_primitives.md section 4, R112 and R113). The mode
multiplexer (R111) is the match on `M` in Machine/Facade.lean. -/

namespace Sys2Proof.Machine

/-- `chooser_select(ch, lp, gp)`: 0 and 1 select local, 2 and 3 select global (R112). -/
def chooserSelect (ch : Counter) (lp gp : Bool) : Bool := if ch.toNat ≤ 1 then lp else gp

/-- `chooser_next(ch, lp, gp, o)`: toward global when only global was right, toward local when only local was
right, clamped (R113). -/
def chooserNext (ch : Counter) (lp gp o : Bool) : Counter :=
  if gp = o ∧ lp ≠ o ∧ ch ≠ 3 then ch + 1
  else if gp ≠ o ∧ lp = o ∧ ch ≠ 0 then ch - 1
  else ch

end Sys2Proof.Machine
end

