-- ==== Sys2Proof/Machine/Tournament.lean ====
section
/-! DEFINITION. Tournament mode, MODE = 2 (spec/42_tournament.md). -/

namespace Sys2Proof.Machine

/-- `tourn_init` (R150): histories 0, counters WeaklyNotTaken, choosers 2. No entry is listed, so every index
reads as the initial value of its table's shape. -/
def tournInit : Predictor := .tournament { ghr := 0, lht := [], lpht := [], gpht := [], chooser := [] }

/-- The indices and entries that PREDICT and TRAIN read, all of them from the state before the command (R68,
R151, R152). -/
structure TournRead where
  g : Nat
  ch : Counter
  p : Nat
  hist : Nat
  l : Nat
  lc : Counter
  gc : Counter
deriving DecidableEq, Repr

/-- The `let` bindings that R151 and R152 share; none where an index falls outside its table. -/
def tournRead (cfg : Config) (pc : Pc) (t : Tournament) : Option TournRead :=
  let g := tournGidx cfg t.ghr
  let p := tournPcidx cfg pc
  match tabRead (chooserShape cfg) t.chooser g, tabRead (lhtShape cfg) t.lht p with
  | some ch, some hist =>
    let l := tournLidx cfg hist
    match tabRead (lphtShape cfg) t.lpht l, tabRead (gphtShape cfg) t.gpht g with
    | some lc, some gc => some { g := g, ch := ch, p := p, hist := hist, l := l, lc := lc, gc := gc }
    | _, _ => none
  | _, _ => none

/-- The five writes of R152, from the values read before them; none where an index falls outside its table. -/
def tournWrite (cfg : Config) (o : Bool) (t : Tournament) (r : TournRead) : Option Tournament :=
  match tabWrite (chooserShape cfg) t.chooser r.g (chooserNext r.ch (ctrRead r.lc) (ctrRead r.gc) o),
      tabWrite (gphtShape cfg) t.gpht r.g (ctrBump r.gc o),
      tabWrite (lphtShape cfg) t.lpht r.l (ctrBump r.lc o),
      tabWrite (lhtShape cfg) t.lht r.p (histShift r.hist o cfg.wL) with
  | some chooser, some gpht, some lpht, some lht =>
    some { ghr := histShift t.ghr o cfg.wG, lht := lht, lpht := lpht, gpht := gpht, chooser := chooser }
  | _, _, _, _ => none

/-- `tourn_predict(pc)`: the chooser selects between the two sub-predictions; nothing is written (R151). -/
def tournPredict (pc : Pc) (t : Tournament) (s : State) : Result :=
  inRange (tournRead s.cfg pc t) fun r =>
  .next (s.accept (chooserSelect r.ch (ctrRead r.lc) (ctrRead r.gc)))

/-- `tourn_train(pc, o)` (R152). -/
def tournTrain (pc : Pc) (o : Bool) (t : Tournament) (s : State) : Result :=
  inRange (tournRead s.cfg pc t) fun r =>
  inRange (tournWrite s.cfg o t r) fun t' =>
  .next (State.accept false { s with m := .tournament t' })

end Sys2Proof.Machine
end

