-- ==== Sys2Proof/Machine/Facade.lean ====
section
/-! DEFINITION. The facade: INIT with its configuration check, and PREDICT and TRAIN sent to the selected mode
(spec/44_facade.md). A meaning holds the whole command: R210's check for FAULTED first, then the checks in the
order of R238, then the effect. FAULT_CMD is the command's own word (log 12). -/

namespace Sys2Proof.Machine

/-- `fits(...)`: the tables fit the capacity the block was built with, always where it is unbounded (R217).
The demand is in storage bits. DESIGN CHOICE (log 9), unsafe. -/
def fits (cfg : Config) (bits : Nat) : Bool :=
  match cfg.capacity with
  | none => true
  | some cap => decide (bits ≤ cap)

/-- `1 <= w <= 32` (R8, R9, R10, R14). -/
def widthOk (w : Nat) : Bool := decide (1 ≤ w) && decide (w ≤ 32)

/-- An override of P_THETA is not negative (R217). -/
def thetaOk (cfg : Config) : Bool :=
  match cfg.pTheta with
  | none => true
  | some t => decide (0 ≤ t)

/-- `cfg_ok(m)` (R217): only the parameters of mode m. A counter has 2 bits (R37), a weight P_WB (R45). -/
def cfgOk (cfg : Config) : Mode → Bool
  | .static => true
  | .gshare => widthOk cfg.wG && fits cfg (2 * 2 ^ cfg.wG)
  | .tournament =>
    widthOk cfg.wG && widthOk cfg.wL && widthOk cfg.wPc
      && fits cfg (2 ^ cfg.wPc * cfg.wL + 2 * (2 ^ cfg.wL + 2 * 2 ^ cfg.wG))
  | .custom =>
    decide (1 ≤ cfg.pH) && decide (1 ≤ cfg.pN) && widthOk cfg.pWb && decide (cfg.pMul < 2 ^ 32) && thetaOk cfg
      && fits cfg (cfg.pN * (cfg.pH + 1) * cfg.pWb + cfg.pH)

/-- The state of `M` that a successful INIT leaves for each mode (R211). -/
def initPredictor (cfg : Config) : Mode → Predictor
  | .static => .static
  | .gshare => gshareInit
  | .tournament => tournInit
  | .custom => percInit cfg

/-- `init(m)` for the INIT word `c` (R211). -/
def initAs (m : Mode) (c : Cmd) (s : State) : Result :=
  unlessFaulted s <|
    if s.status = .ready then .next (s.raise .reinit c)
    else if cfgOk s.cfg m then
      .next (State.accept false { s with m := initPredictor s.cfg m, status := .ready })
    else .next (s.raise .configInvalid c)

/-- INIT.STATIC (R211, R214). -/
def execInitStatic (s : State) : Result := initAs .static (encode .initStatic) s

/-- INIT.GSHARE (R211, R130). -/
def execInitGshare (s : State) : Result := initAs .gshare (encode .initGshare) s

/-- INIT.TOURNAMENT (R211, R150). -/
def execInitTournament (s : State) : Result := initAs .tournament (encode .initTournament) s

/-- INIT.CUSTOM (R211, R180). -/
def execInitCustom (s : State) : Result := initAs .custom (encode .initCustom) s

/-- PREDICT (R212): the mode multiplexer of R111 sends it to the selected mode. -/
def execPredict (pc : Pc) (s : State) : Result :=
  unlessFaulted s <|
    if s.status = .uninit then .next (s.raise .notInitialized (encode (.predict pc)))
    else
      match s.m with
      | .absent => .refused .noValue
      | .static => staticPredict pc s
      | .gshare g => gsharePredict pc g s
      | .tournament t => tournPredict pc t s
      | .perceptron p => percPredict pc p s

/-- TRAIN (R213): the mode multiplexer of R111 sends it to the selected mode. -/
def execTrain (pc : Pc) (o : Bool) (s : State) : Result :=
  unlessFaulted s <|
    if s.status = .uninit then .next (s.raise .notInitialized (encode (.train pc o)))
    else
      match s.m with
      | .absent => .refused .noValue
      | .static => staticTrain pc o s
      | .gshare g => gshareTrain pc o g s
      | .tournament t => tournTrain pc o t s
      | .perceptron p => percTrain pc o p s

end Sys2Proof.Machine
end

