-- ==== Sys2Proof/Machine/Dispatch.lean ====
section
/-! DEFINITION. One arm for each command: the case of R210. -/

namespace Sys2Proof.Machine

-- The dispatch of a decoded command to its meaning (R210).
def exec (i : Instr) (s : State) : Host.Outcome State Fault Refusal :=
  match i with
  | .initStatic => Sys2Proof.Machine.execInitStatic s
  | .initGshare => Sys2Proof.Machine.execInitGshare s
  | .initTournament => Sys2Proof.Machine.execInitTournament s
  | .initCustom => Sys2Proof.Machine.execInitCustom s
  | .predict pc => Sys2Proof.Machine.execPredict pc s
  | .train pc o => Sys2Proof.Machine.execTrain pc o s

end Sys2Proof.Machine
end

