-- ==== Sys2Proof/Machine/Port.lean ====
section
/-! DEFINITION. The command port: R210's step of one command word, and the service of one input (R69, R249, R260). -/

namespace Sys2Proof.Machine

/-- `step(S, c)` of R210: one command word is applied to the state. A FAULTED block ignores every word, a RESERVED
one too; otherwise a RESERVED word raises RESERVED_ENCODING (R231). -/
def issue (c : Cmd) (s : State) : Result :=
  unlessFaulted s <|
    match decode c with
    | .ok i => exec i s
    | .error _ => .next (s.raise .reservedEncoding c)

/-- Serves the input at the head of the port, which leaves the port with it. With nothing at the port the block
waits, and its state does not change (R249, R260). -/
def serve (s : State) : Result :=
  match s.port with
  | [] => .next s
  | .hardwareReset cfg :: rest => .next (State.hardwareReset cfg { s with port := rest })
  | .command c :: rest => issue c { s with port := rest }

/-- Puts a command word at the head of the port, before whatever waits there. -/
def State.offer (c : Cmd) (s : State) : State := { s with port := .command c :: s.port }

end Sys2Proof.Machine
end

