-- ==== Sys2Proof/Machine/Step.lean ====
section
/-! DEFINITION. One step of the block: it serves one input of its port. -/

namespace Sys2Proof.Machine

/-- One step (R6, R67, R210): the input at the head of the port is served as one indivisible step. -/
def step (s : State) : Host.Outcome State Fault Refusal := serve s

/-- The state whose very next step runs the command whose word is `w`, a number of `nbits` bits with zeros above
them: the harness issues that word (R262; log 1). Commands already at the port wait behind it. -/
def State.withFetchWord (s : State) (nbits w : Nat) : State := s.offer (BitVec.ofNat 40 (w % 2 ^ nbits))

end Sys2Proof.Machine
end

