-- ==== Sys2Proof/Machine/Assembler.lean ====
section
/-! DEFINITION. The textual command stream (R89, R90): from characters to lines, and from lines to command words. It is
no part of a step (D22: "Not semantic"). Spelling details that R89 leaves open are a DESIGN CHOICE (log 16), safe. -/

namespace Sys2Proof.Machine

/-- The words that one line stands for (R89, R90); none where the line is not well formed. -/
def AsmLine.words (a : AsmLine) : Option (List Cmd) :=
  if a.wellFormed then
    some <| match a with
      | .initStatic => [encode .initStatic]
      | .initGshare => [encode .initGshare]
      | .initTournament => [encode .initTournament]
      | .initCustom => [encode .initCustom]
      | .initPerceptron => [encode .initCustom]
      | .predict pc => [encode (.predict (BitVec.ofNat 32 pc))]
      | .train pc o => [encode (.train (BitVec.ofNat 32 pc) o)]
      | .step pc o => [encode (.predict (BitVec.ofNat 32 pc)), encode (.train (BitVec.ofNat 32 pc) o)]
      | .raw word => [BitVec.ofNat 40 word]
  else none

/-- The words of a list of lines, none where one line is not well formed. -/
def assembleLines : List AsmLine → Option (List Cmd)
  | [] => some []
  | a :: rest =>
    match AsmLine.words a, assembleLines rest with
    | some ws, some ws' => some (ws ++ ws')
    | _, _ => none

/-- The value of a digit in a base up to sixteen. -/
def digitValue (base : Nat) (c : Char) : Option Nat :=
  let v :=
    if '0' ≤ c ∧ c ≤ '9' then c.toNat - '0'.toNat
    else if 'a' ≤ c ∧ c ≤ 'f' then c.toNat - 'a'.toNat + 10
    else if 'A' ≤ c ∧ c ≤ 'F' then c.toNat - 'A'.toNat + 10
    else base
  if v < base then some v else none

/-- The number that further digits write after the value `acc`. -/
def digitsValue (base acc : Nat) : List Char → Option Nat
  | [] => some acc
  | c :: cs =>
    match digitValue base c with
    | some d => digitsValue base (acc * base + d) cs
    | none => none

/-- A decimal or `0x`-prefixed hexadecimal number (R89). -/
def numberValue : List Char → Option Nat
  | [] => none
  | ['0', 'x'] => none
  | '0' :: 'x' :: ds => digitsValue 16 0 ds
  | ds => digitsValue 10 0 ds

/-- The outcome letters T and N (R19, R89). -/
def outcomeValue : List Char → Option Bool
  | ['T'] => some true
  | ['N'] => some false
  | _ => none

/-- A finished token, if it has any character. -/
def flushToken (token : List Char) : List (List Char) := if token = [] then [] else [token]

/-- The tokens of a line: split at blanks, a comma a token of its own; `token` is the one being read. -/
def tokensFrom (token : List Char) : List Char → List (List Char)
  | [] => flushToken token
  | c :: cs =>
    if c = ' ' ∨ c = '\t' ∨ c = '\r' then flushToken token ++ tokensFrom [] cs
    else if c = ',' then flushToken token ++ [','] :: tokensFrom [] cs
    else tokensFrom (token ++ [c]) cs

/-- The mode names of R89, and `perceptron` of R90. -/
def initLine (mode : List Char) : Option AsmLine :=
  if mode = "static".toList then some .initStatic
  else if mode = "gshare".toList then some .initGshare
  else if mode = "tournament".toList then some .initTournament
  else if mode = "custom".toList then some .initCustom
  else if mode = "perceptron".toList then some .initPerceptron
  else none

/-- The line that the tokens write: none of them for an empty line (R89, R90). -/
def lineOfTokens : List (List Char) → Option (List AsmLine)
  | [] => some []
  | [name, arg] =>
    if name = "init".toList then (initLine arg).map ([·])
    else if name = "predict".toList then (numberValue arg).map ([.predict ·])
    else if name = ".cmd".toList then (numberValue arg).map ([.raw ·])
    else none
  | [name, pc, comma, o] =>
    match numberValue pc, outcomeValue o with
    | some n, some b =>
      if comma = [','] ∧ name = "train".toList then some [.train n b]
      else if comma = [','] ∧ name = "step".toList then some [.step n b]
      else none
    | _, _ => none
  | _ => none

/-- One line of text: a `;` starts a comment (R89). -/
def parseLine (line : List Char) : Option (List AsmLine) :=
  lineOfTokens (tokensFrom [] (line.takeWhile (· ≠ ';')))

/-- The lines of a text; `line` is the one being read. -/
def linesFrom (line : List Char) : List Char → List (List Char)
  | [] => [line]
  | c :: cs => if c = '\n' then line :: linesFrom [] cs else linesFrom (line ++ [c]) cs

/-- The commands that a list of text lines writes, one command per line (R89). -/
def parseLines : List (List Char) → Option (List AsmLine)
  | [] => some []
  | l :: ls =>
    match parseLine l, parseLines ls with
    | some a, some rest => some (a ++ rest)
    | _, _ => none

/-- The words of a text; none where a line is not of R89's or R90's forms, or writes too large a value. -/
def assemble (text : String) : Option (List Cmd) :=
  match parseLines (linesFrom [] text.toList) with
  | some as => assembleLines as
  | none => none

/-- Issues a list of words after everything that already waits at the port (R69, R263). -/
def State.enqueue (cs : List Cmd) (s : State) : State := { s with port := s.port ++ cs.map .command }

end Sys2Proof.Machine
end

