-- ==== Sys2Proof/Safety.lean ====
section
/-! DEFINITION. What counts as a safe run, in the terms the statements use: a run that has not faulted (R241), the
invariant of the block, the effect and the responses of a sequence of commands, and the harness's contract of R262
and R264 as a predicate on command streams. -/

namespace Sys2Proof.Machine

/-- A state in which the run has not faulted. FAULTED is never a successful end (R241). -/
def State.unfaulted (s : State) : Bool := s.status != .faulted

/-- The mode that an INIT command selects; none for the other commands (R82). -/
def initMode : Instr → Option Mode
  | .initStatic => some .static
  | .initGshare => some .gshare
  | .initTournament => some .tournament
  | .initCustom => some .custom
  | .predict _ => none
  | .train _ _ => none

/-! ### The invariant -/

/-- The fault record of a FAULTED block tells which command faulted and why, as R230's table has it: a RESERVED
word with code 1; an INIT with code 2 while there was no mode, or with code 4 while there was one; a PREDICT or
TRAIN with code 3 while there was no mode; a TRAIN with code 5 in mode 3. -/
def faultRecordOk (s : State) : Bool :=
  match decode s.faultCmd with
  | .error _ => s.faultCode == 1
  | .ok .initStatic => s.faultCode == 4 && s.mode.isSome
  | .ok .initGshare =>
    (s.faultCode == 2 && s.mode.isNone && !cfgOk s.cfg .gshare) || (s.faultCode == 4 && s.mode.isSome)
  | .ok .initTournament =>
    (s.faultCode == 2 && s.mode.isNone && !cfgOk s.cfg .tournament) || (s.faultCode == 4 && s.mode.isSome)
  | .ok .initCustom =>
    (s.faultCode == 2 && s.mode.isNone && !cfgOk s.cfg .custom) || (s.faultCode == 4 && s.mode.isSome)
  | .ok (.predict _) => s.faultCode == 3 && s.mode.isNone
  | .ok (.train _ _) => (s.faultCode == 3 && s.mode.isNone) || (s.faultCode == 5 && s.mode == some .custom)

/-- STATUS agrees with MODE and with the fault record: no mode before INIT (R30, R35), a mode while READY (R211),
and a fault record exactly while FAULTED (R33, R34). -/
def lifecycleOk (s : State) : Bool :=
  match s.status with
  | .uninit => s.mode.isNone && s.faultCode == 0 && s.faultCmd == 0
  | .ready => s.mode.isSome && s.faultCode == 0 && s.faultCmd == 0
  | .faulted => faultRecordOk s

/-- The last response agrees with STATUS and FAULT_CODE: its FAULT field is FAULT_CODE, and PRED is 0 once the block
has faulted (R87, R240, R241). -/
def responseOk (s : State) : Bool :=
  match s.response with
  | none => s.status == .uninit
  | some r => s.status != .uninit && Response.fault r == s.faultCode && (!Response.pred r || s.status == .ready)

/-- Every weight of a row lies in [WMIN, WMAX] (R45, R184). -/
def rowBounded (cfg : Config) (row : WeightRow) : Bool :=
  row.all fun wt => decide (wMin cfg ≤ wt) && decide (wt ≤ wMax cfg)

/-- The scratch of a PREDICT that no TRAIN has consumed is what a PREDICT of its pc would write now: no TRAIN has
changed W or HIST since (R47, R181). -/
def scratchOk (cfg : Config) (p : Perceptron) : Bool :=
  !p.scrValid ||
    match readRow cfg p (percIdx cfg p.scrPc) with
    | some row =>
      p.lastPred == percPred (percOut row p.hist) && p.needsTrain == percNeeds p.theta (percOut row p.hist)
    | none => false

/-- `M` is a state of its mode: the configuration passes the mode's check (R217), every register fits its width
(R38, R40, R41), every table is in canonical form with its indices below its size (R61), the window has P_H
entries (R46), the rows have P_H + 1 bounded weights (R45), P_THETA is INIT's (R48). -/
def predictorOk (cfg : Config) : Predictor → Bool
  | .absent => true
  | .static => true
  | .gshare g => cfgOk cfg .gshare && decide (g.ghr < 2 ^ cfg.wG) && g.pht.wf (phtShape cfg)
  | .tournament t =>
    cfgOk cfg .tournament && decide (t.ghr < 2 ^ cfg.wG) && t.lht.wf (lhtShape cfg)
      && t.lht.all (fun e => decide (e.2 < 2 ^ cfg.wL))
      && t.lpht.wf (lphtShape cfg) && t.gpht.wf (gphtShape cfg) && t.chooser.wf (chooserShape cfg)
  | .perceptron p =>
    cfgOk cfg .custom && p.hist.length == cfg.pH && p.w.wf (wShape cfg)
      && p.w.all (fun e => e.2.length == cfg.pH + 1 && rowBounded cfg e.2)
      && p.theta == pTheta cfg && scratchOk cfg p

/-- The invariant of the block. -/
def State.inv (s : State) : Bool := lifecycleOk s && responseOk s && predictorOk s.cfg s.m

/-- `M` without the perceptron's scratch registers: the tables, the histories and the constants. A PREDICT writes only
what is cleared here (R74). -/
def Predictor.withoutScratch : Predictor → Predictor
  | .absent => .absent
  | .static => .static
  | .gshare g => .gshare g
  | .tournament t => .tournament t
  | .perceptron p => .perceptron { p with lastPred := false, needsTrain := false, scrValid := false, scrPc := 0 }

/-! ### The fault of a command -/

/-- The fault code that STATUS and the word leave in FAULT_CODE, by the order of R238: the stored code while
FAULTED, then RESERVED_ENCODING, then the life-cycle faults, then CONFIG_INVALID, then ORDER_VIOLATION; 0 where
the command is accepted. -/
def firstFault (c : Cmd) (s : State) : FaultBits :=
  if s.status = .faulted then s.faultCode
  else
    match decode c with
    | .error _ => 1
    | .ok i =>
      match initMode i with
      | some m => if s.status = .ready then 4 else if cfgOk s.cfg m = false then 2 else 0
      | none =>
        if s.status = .uninit then 3
        else
          match i, s.m with
          | .train pc _, .perceptron p => if p.scrValid = false ∨ p.scrPc ≠ pc then 5 else 0
          | _, _ => 0

/-- The prediction that each mode gives for a pc, as a function of `M` alone: always Taken (R214), the counter at the
hashed index (R131), the sub-prediction that the chooser selects (R151), the sign of the perceptron's sum (R181). -/
def Predictor.prediction (cfg : Config) (pc : Pc) : Predictor → Option Bool
  | .absent => none
  | .static => some true
  | .gshare g => (tabRead (phtShape cfg) g.pht (gshareIdx cfg pc g.ghr)).map ctrRead
  | .tournament t =>
    match tabRead (chooserShape cfg) t.chooser (tournGidx cfg t.ghr) with
    | none => none
    | some ch =>
      if ch.toNat ≤ 1 then
        match tabRead (lhtShape cfg) t.lht (tournPcidx cfg pc) with
        | none => none
        | some h => (tabRead (lphtShape cfg) t.lpht (tournLidx cfg h)).map ctrRead
      else (tabRead (gphtShape cfg) t.gpht (tournGidx cfg t.ghr)).map ctrRead
  | .perceptron p => (readRow cfg p (percIdx cfg pc)).map fun row => percPred (percOut row p.hist)

/-! ### Sequences of commands -/

/-- The outcome of a sequence of command words (R69). -/
def issueAll : List Cmd → State → Result
  | [], s => .next s
  | c :: cs, s =>
    match issue c s with
    | .next s' => issueAll cs s'
    | .fault r => .fault r
    | .refused r => .refused r

/-- The responses to a sequence of command words, in order; it ends where the machine stops. -/
def responses : List Cmd → State → List (Option Response)
  | [], _ => []
  | c :: cs, s =>
    match issue c s with
    | .next s' => s'.response :: responses cs s'
    | .fault _ => []
    | .refused _ => []

/-- `n` TRAINs of one branch with one outcome, with no other command between them (R134). -/
def trainsOf (pc : Pc) (o : Bool) (n : Nat) : List Cmd := List.replicate n (encode (.train pc o))

/-! ### The harness's contract -/

/-- The INIT command of a mode (R82). -/
def initInstr : Mode → Instr
  | .static => .initStatic
  | .gshare => .initGshare
  | .tournament => .initTournament
  | .custom => .initCustom

/-- A branch instance served as R264 asks: `predict pc`, then `train pc, o`, with nothing between. -/
def pairedStep (b : Pc × Bool) : List Cmd := [encode (.predict b.1), encode (.train b.1 b.2)]

/-- A command stream that follows R262 and R264: one INIT, then branch instances one after the other. -/
def contractStream (m : Mode) (branches : List (Pc × Bool)) : List Cmd :=
  encode (initInstr m) :: branches.flatMap pairedStep

end Sys2Proof.Machine
end

