-- ==== Sys2Proof/Certificates/Slice0/Obligations.lean ====
section
/-! DEFINITION. The statements for the provers. Each names the rules of spec/ it formalises, or, where the spec itself
derives the rule, the rules it is derived from. Every statement about a state holds for every configuration, since
`cfg` is a field of State. A response is read from the field that keeps the last one (log 2). -/

open Sys2Proof Sys2Proof.Machine

/-! ### Encoding and decoding -/

/-- Words of spec/95_test_vectors.md section 2.11 decode to what that table says. -/
def Obligations.WrittenWordsDecode : Prop :=
  decode 0xC000000000 = .ok .initStatic ∧ decode 0xD000000000 = .ok .initGshare ∧
  decode 0xE000000000 = .ok .initTournament ∧ decode 0xF000000000 = .ok .initCustom ∧
  decode 0x40FFFFFFFF = .ok (.predict 0xFFFFFFFF) ∧ decode 0x8800000004 = .ok (.train 0x4 true) ∧
  decode 0x8000000004 = .ok (.train 0x4 false) ∧ decode 0x4800000004 = .error .predictWithOutcome ∧
  decode 0x9000000004 = .error .trainWithMode ∧ decode 0xC000000001 = .error .initWithPc

/-- A word decodes to a command exactly when it is that command's encoding: no bit is dropped and no command has
two words (spec/30_encoding.md sections 1 and 2). -/
def Obligations.DecodeAndEncodeAgree : Prop :=
  ∀ (c : Cmd) (i : Instr), i.wellFormed = true → (decode c = .ok i ↔ c = encode i)

/-- The legal command words are exactly these (R86, which the spec derives from R80 and R85). -/
def Obligations.LegalWordsAreTheListedOnes : Prop :=
  (∀ (c : Cmd) (m : Mode), decode c = .ok (initInstr m) ↔ c = 0xC000000000#40 ||| (m.bits.setWidth 40 <<< 36)) ∧
  (∀ (c : Cmd) (pc : Pc), decode c = .ok (.predict pc) ↔ c = 0x4000000000#40 ||| pc.setWidth 40) ∧
  (∀ (c : Cmd) (pc : Pc) (o : Bool), decode c = .ok (.train pc o) ↔
    c = 0x8000000000#40 ||| ((BitVec.ofBool o).setWidth 40 <<< 35) ||| pc.setWidth 40) ∧
  (∀ (c : Cmd) (i : Instr), decode c = .ok i →
    (∃ m, i = initInstr m) ∨ (∃ pc, i = .predict pc) ∨ (∃ pc o, i = .train pc o))

/-- R85: decoding by the bit fields, the list of RESERVED words, and the fault a RESERVED word raises. -/
def Obligations.ReservedWordsAreTheListedOnes : Prop :=
  ∀ c : Cmd,
    (c.extractLsb' 38 2 = 1 ∧ c.extractLsb' 36 2 = 0 ∧ c.getLsbD 35 = false ∧ c.extractLsb' 32 3 = 0 →
      decode c = .ok (.predict (c.extractLsb' 0 32))) ∧
    (c.extractLsb' 38 2 = 2 ∧ c.extractLsb' 36 2 = 0 ∧ c.extractLsb' 32 3 = 0 →
      decode c = .ok (.train (c.extractLsb' 0 32) (c.getLsbD 35))) ∧
    (c.extractLsb' 38 2 = 3 ∧ c.getLsbD 35 = false ∧ c.extractLsb' 32 3 = 0 ∧ c.extractLsb' 0 32 = 0 →
      ∀ m : Mode, m.bits = c.extractLsb' 36 2 → decode c = .ok (initInstr m)) ∧
    ((∃ e, decode c = .error e) ↔
      c.extractLsb' 38 2 = 0 ∨ c.extractLsb' 32 3 ≠ 0 ∨
      (c.extractLsb' 38 2 = 1 ∧ (c.extractLsb' 36 2 ≠ 0 ∨ c.getLsbD 35 = true)) ∨
      (c.extractLsb' 38 2 = 2 ∧ c.extractLsb' 36 2 ≠ 0) ∨
      (c.extractLsb' 38 2 = 3 ∧ (c.getLsbD 35 = true ∨ c.extractLsb' 0 32 ≠ 0))) ∧
    (∀ e, decode c = .error e → ∀ s : State, s.status ≠ .faulted →
      ∃ s', issue c s = .next s' ∧ s'.status = .faulted ∧ s'.faultCode = 1 ∧ s'.faultCmd = c)

/-- R90: the two pseudo-instructions expand to core commands. -/
def Obligations.PseudoInstructionsExpand : Prop :=
  AsmLine.words .initPerceptron = AsmLine.words .initCustom ∧
  ∀ (pc : Nat) (o : Bool), pc < 2 ^ 32 →
    ∃ wp wt : Cmd, AsmLine.words (.predict pc) = some [wp] ∧ AsmLine.words (.train pc o) = some [wt] ∧
      AsmLine.words (.step pc o) = some [wp, wt] ∧
      decode wp = .ok (.predict (BitVec.ofNat 32 pc)) ∧ decode wt = .ok (.train (BitVec.ofNat 32 pc) o)

/-- "An assembler rejects any larger value": a pc above 2^32 - 1 in any line of a text (spec/30_encoding.md
section 3). -/
def Obligations.AssemblerRejectsLargePcs : Prop :=
  ∀ (before after : List AsmLine) (pc : Nat) (o : Bool), 2 ^ 32 ≤ pc →
    assembleLines (before ++ .predict pc :: after) = none ∧
    assembleLines (before ++ .train pc o :: after) = none ∧
    assembleLines (before ++ .step pc o :: after) = none

/-! ### The step, reset and faults -/

/-- A step applies the word at the head of the port, and a decoded word runs as its command (spec/44_facade.md
R210; the port is the model's, log 1). -/
def Obligations.StepRunsDecodedCommand : Prop :=
  ∀ (s : State) (c : Cmd) (rest : List Input), s.port = .command c :: rest →
    (∀ i, decode c = .ok i → step s = exec i { s with port := rest }) ∧
    (∀ e, decode c = .error e → s.status ≠ .faulted →
      step s = .next { s with
        port := rest, status := .faulted, faultCode := 1, faultCmd := c, response := some 0b0010#4 }) ∧
    (∀ e, decode c = .error e → s.status = .faulted →
      step s = .next { s with port := rest, response := some (s.faultCode ++ 0#1) }) ∧
    (∀ w, w < 2 ^ 40 → step (s.withFetchWord 40 w) = issue (BitVec.ofNat 40 w) s)

/-- With nothing at the port the block holds its state (spec/60_exceptions.md R249; the port is the model's, log 1);
and whatever changes the state, a command or a hardware reset was at the port. -/
def Obligations.NothingButInputsChangesState : Prop :=
  (∀ s : State, s.port = [] → step s = .next s) ∧
  (∀ s s' : State, step s = .next s' → s' ≠ s →
    ∃ rest, (∃ c, s.port = .command c :: rest) ∨ (∃ cfg, s.port = .hardwareReset cfg :: rest))

/-- Hardware reset from any state, FAULTED or not (spec/70_reset_and_hazards.md R260, R261; the port and the response
are the model's, log 1, log 2 and log 10). -/
def Obligations.HardwareResetClearsEverything : Prop :=
  ∀ (s : State) (cfg : Config) (rest : List Input), s.port = .hardwareReset cfg :: rest →
    ∃ s', step s = .next s' ∧ s'.status = .uninit ∧ s'.faultCode = 0 ∧ s'.faultCmd = 0 ∧ s'.mode = none ∧
      s'.m = .absent ∧ s'.cfg = cfg ∧ s'.response = none ∧ s'.port = rest

/-- The state after reset (R32 to R35, R30, R260). The widths in `cfg`, the empty port and the missing response are
the model's choices (log 1 to log 3) and are not stated. -/
def Obligations.ResetStateValues : Prop :=
  State.reset.status = .uninit ∧ State.reset.faultCode = 0 ∧ State.reset.faultCmd = 0 ∧
  State.reset.mode = none ∧ State.reset.m = .absent

/-- R241: while FAULTED every command is ignored, whatever the sequence. -/
def Obligations.FaultedBlockIgnoresEveryCommand : Prop :=
  ∀ (s : State), s.status = .faulted →
    (∀ c : Cmd, issue c s = .next { s with response := some (s.faultCode ++ 0#1) }) ∧
    (∀ cs : List Cmd, ∃ s', issueAll cs s = .next s' ∧ s' = { s with response := s'.response } ∧
      responses cs s = List.replicate cs.length (some (s.faultCode ++ 0#1)))

/-- R242: only hardware reset leaves FAULTED, and the block must then be initialized again. -/
def Obligations.OnlyHardwareResetLeavesFaulted : Prop :=
  ∀ s s' : State, s.status = .faulted → step s = .next s' → s'.status ≠ .faulted →
    (∃ cfg rest, s.port = .hardwareReset cfg :: rest) ∧ s'.status = .uninit ∧ s'.m = .absent ∧
    (∀ pc, ∃ t, exec (.predict pc) s' = .next t ∧ t.status = .faulted) ∧
    (∀ pc o, ∃ t, exec (.train pc o) s' = .next t ∧ t.status = .faulted)

/-- R231: a RESERVED word faults in any STATUS except FAULTED, and FAULT_CMD records the word. -/
def Obligations.ReservedWordFaults : Prop :=
  ∀ (c : Cmd) (s : State) (e : DecodeError), decode c = .error e → s.status ≠ .faulted →
    issue c s = .next { s with
      status := .faulted, faultCode := 1, faultCmd := c, response := some 0b0010#4 }

/-- R233: PREDICT and TRAIN before INIT fault, and FAULT_CMD records the command word. -/
def Obligations.CommandsBeforeInitFault : Prop :=
  ∀ s : State, s.status = .uninit →
    (∀ pc : Pc, exec (.predict pc) s = .next { s with
      status := .faulted, faultCode := 3, faultCmd := 0x4000000000#40 ||| pc.setWidth 40,
      response := some 0b0110#4 }) ∧
    (∀ (pc : Pc) (o : Bool), exec (.train pc o) s = .next { s with
      status := .faulted, faultCode := 3,
      faultCmd := 0x8000000000#40 ||| ((BitVec.ofBool o).setWidth 40 <<< 35) ||| pc.setWidth 40,
      response := some 0b0110#4 })

/-- R234: INIT while READY faults, and FAULT_CMD records the INIT word. -/
def Obligations.SecondInitFaults : Prop :=
  ∀ (s : State) (m : Mode), s.status = .ready →
    exec (initInstr m) s = .next { s with
      status := .faulted, faultCode := 4, faultCmd := 0xC000000000#40 ||| (m.bits.setWidth 40 <<< 36),
      response := some 0b1000#4 }

/-- INIT of a mode whose configuration check fails faults, and FAULT_CMD records the INIT word; the check fails where
a width or a table size that the mode uses is zero or out of range (spec/60_exceptions.md R232). -/
def Obligations.InitWithBadConfigurationFaults : Prop :=
  ∀ (s : State) (m : Mode), s.status = .uninit →
    (cfgOk s.cfg m = false →
      exec (initInstr m) s = .next { s with
        status := .faulted, faultCode := 2, faultCmd := 0xC000000000#40 ||| (m.bits.setWidth 40 <<< 36),
        response := some 0b0100#4 }) ∧
    (¬ (1 ≤ s.cfg.wG ∧ s.cfg.wG ≤ 32) → cfgOk s.cfg .gshare = false ∧ cfgOk s.cfg .tournament = false) ∧
    (¬ (1 ≤ s.cfg.wL ∧ s.cfg.wL ≤ 32 ∧ 1 ≤ s.cfg.wPc ∧ s.cfg.wPc ≤ 32) → cfgOk s.cfg .tournament = false) ∧
    (¬ (1 ≤ s.cfg.pH ∧ 1 ≤ s.cfg.pN ∧ 1 ≤ s.cfg.pWb ∧ s.cfg.pWb ≤ 32) → cfgOk s.cfg .custom = false)

/-- The configuration check of spec/44_facade.md R217 where the capacity is unbounded, and static mode under any
configuration. A capacity only takes modes away, and a capacity of no storage bits takes all but static away; that
storage is counted in bits is the model's choice (log 9). -/
def Obligations.ConfigurationCheckByMode : Prop :=
  ∀ cfg : Config,
    cfgOk cfg .static = true ∧
    (cfg.capacity = none →
      (cfgOk cfg .gshare = true ↔ 1 ≤ cfg.wG ∧ cfg.wG ≤ 32) ∧
      (cfgOk cfg .tournament = true ↔
        (1 ≤ cfg.wG ∧ cfg.wG ≤ 32) ∧ (1 ≤ cfg.wL ∧ cfg.wL ≤ 32) ∧ (1 ≤ cfg.wPc ∧ cfg.wPc ≤ 32)) ∧
      (cfgOk cfg .custom = true ↔
        1 ≤ cfg.pH ∧ 1 ≤ cfg.pN ∧ (1 ≤ cfg.pWb ∧ cfg.pWb ≤ 32) ∧ cfg.pMul < 2 ^ 32 ∧
        ∀ t, cfg.pTheta = some t → 0 ≤ t)) ∧
    (∀ m, cfgOk cfg m = true → cfgOk { cfg with capacity := none } m = true) ∧
    (cfg.capacity = some 0 → ∀ m, m ≠ .static → cfgOk cfg m = false)

/-- R238: the first check that applies, in the rule's order, gives the fault; and none applies exactly when the
command is accepted. -/
def Obligations.FaultChecksFollowPriority : Prop :=
  ∀ (c : Cmd) (s : State), s.inv = true →
    ∃ s', issue c s = .next s' ∧ s'.faultCode = firstFault c s ∧ (s'.status = .faulted ↔ firstFault c s ≠ 0)

/-- R239 and R240: a faulting command writes STATUS, FAULT_CODE, FAULT_CMD and the response, and nothing else. -/
def Obligations.FaultsArePrecise : Prop :=
  ∀ (c : Cmd) (s s' : State), issue c s = .next s' → s.status ≠ .faulted → s'.status = .faulted →
    s' = { s with
      status := .faulted, faultCode := s'.faultCode, faultCmd := c, response := some (s'.faultCode ++ 0#1) } ∧
    (s'.faultCode = 1 ∨ s'.faultCode = 2 ∨ s'.faultCode = 3 ∨ s'.faultCode = 4 ∨ s'.faultCode = 5)

/-- R216: after a successful INIT no command changes MODE. -/
def Obligations.ModeIsFixedForTheRun : Prop :=
  ∀ (s s₁ s₂ : State) (m : Mode) (cs : List Cmd),
    exec (initInstr m) s = .next s₁ → s₁.status = .ready → issueAll cs s₁ = .next s₂ → s₂.mode = some m

/-- R87: the response of every command. PRED is the prediction of the selected mode where a PREDICT is accepted, and 0
for every other command; FAULT is 0 where the command is accepted, and otherwise the code of the fault it raised or,
in a FAULTED block, the stored code. -/
def Obligations.ResponseFieldsOfEveryCommand : Prop :=
  ∀ (c : Cmd) (s s' : State), s.inv = true → issue c s = .next s' →
    ∃ r : Response, s'.response = some r ∧ r.extractLsb' 1 3 = firstFault c s ∧
      (s.status = .faulted → r.extractLsb' 1 3 = s.faultCode) ∧
      (∀ pc, decode c = .ok (.predict pc) → firstFault c s = 0 →
        s.m.prediction s.cfg pc = some (r.getLsbD 0)) ∧
      (r.getLsbD 0 = true → firstFault c s = 0 ∧ ∃ pc, decode c = .ok (.predict pc))

/-- No command writes the configuration (R36) or the port (log 1), and no command but INIT writes P_THETA
(spec/10_state.md R48). -/
def Obligations.CommandsKeepConfigurationAndThreshold : Prop :=
  ∀ (c : Cmd) (s s' : State), issue c s = .next s' →
    s'.cfg = s.cfg ∧ s'.port = s.port ∧
    ∀ p p', s.status = .ready → s.m = .perceptron p → s'.m = .perceptron p' → p'.theta = p.theta

/-- After INIT, no command but TRAIN changes a table, a history register or a constant of the mode (R31, R74, R213). -/
def Obligations.OnlyTrainChangesTablesAndHistories : Prop :=
  ∀ (c : Cmd) (s s' : State), s.status ≠ .uninit → issue c s = .next s' →
    (∀ pc o, decode c ≠ .ok (.train pc o)) → s'.m.withoutScratch = s.m.withoutScratch

/-! ### INIT -/

/-- INIT static succeeds for every configuration and builds no table (R211, R214, R49). -/
def Obligations.InitStaticCompletes : Prop :=
  ∀ s : State, s.status = .uninit →
    exec .initStatic s = .next { s with m := .static, status := .ready, response := some 0#4 }

/-- INIT gshare leaves GHR = 0 and every counter of the PHT at 1, and faults where W_g is outside 1..32
(spec/41_gshare.md R130). That the PHT is a list in canonical form is the model's own clause (log 5, DEDUCED). -/
def Obligations.InitGshareBuildsItsTables : Prop :=
  ∀ s : State, s.status = .uninit →
    (cfgOk s.cfg .gshare = true → ∃ g : Gshare,
      exec .initGshare s = .next { s with m := .gshare g, status := .ready, response := some 0#4 } ∧
      g.ghr = 0 ∧ g.pht.wf (phtShape s.cfg) = true ∧
      ∀ i, tabRead (phtShape s.cfg) g.pht i = if i < 2 ^ s.cfg.wG then some 1 else none) ∧
    (cfgOk s.cfg .gshare = false → exec .initGshare s = .next { s with
      status := .faulted, faultCode := 2, faultCmd := 0xD000000000, response := some 0b0100#4 }) ∧
    (¬ (1 ≤ s.cfg.wG ∧ s.cfg.wG ≤ 32) → cfgOk s.cfg .gshare = false)

/-- R150: INIT tournament leaves histories 0, the counters of LPHT and GPHT at 1 and those of CHOOSER at 2, and
faults where a width is outside 1..32. -/
def Obligations.InitTournamentBuildsItsTables : Prop :=
  ∀ s : State, s.status = .uninit →
    (cfgOk s.cfg .tournament = true → ∃ t : Tournament,
      exec .initTournament s = .next { s with m := .tournament t, status := .ready, response := some 0#4 } ∧
      t.ghr = 0 ∧
      (∀ i, tabRead (lhtShape s.cfg) t.lht i = if i < 2 ^ s.cfg.wPc then some 0 else none) ∧
      (∀ i, tabRead (lphtShape s.cfg) t.lpht i = if i < 2 ^ s.cfg.wL then some 1 else none) ∧
      (∀ i, tabRead (gphtShape s.cfg) t.gpht i = if i < 2 ^ s.cfg.wG then some 1 else none) ∧
      (∀ i, tabRead (chooserShape s.cfg) t.chooser i = if i < 2 ^ s.cfg.wG then some 2 else none)) ∧
    (cfgOk s.cfg .tournament = false → exec .initTournament s = .next { s with
      status := .faulted, faultCode := 2, faultCmd := 0xE000000000, response := some 0b0100#4 }) ∧
    (¬ ((1 ≤ s.cfg.wG ∧ s.cfg.wG ≤ 32) ∧ (1 ≤ s.cfg.wL ∧ s.cfg.wL ≤ 32) ∧ (1 ≤ s.cfg.wPc ∧ s.cfg.wPc ≤ 32)) →
      cfgOk s.cfg .tournament = false)

/-- R180: INIT custom leaves P_THETA, all weights 0, the window all NotTaken and the scratch cleared, and faults
where the configuration check of the mode fails, as it does where P_H, P_N or P_WB is out of range. -/
def Obligations.InitCustomBuildsItsTables : Prop :=
  ∀ s : State, s.status = .uninit →
    (cfgOk s.cfg .custom = true → ∃ p : Perceptron,
      exec .initCustom s = .next { s with m := .perceptron p, status := .ready, response := some 0#4 } ∧
      (s.cfg.pTheta = none → p.theta = ((193 * s.cfg.pH + 1450) / 100 : Nat)) ∧
      (∀ t, s.cfg.pTheta = some t → p.theta = t) ∧
      (∀ r, readRow s.cfg p r = if r < s.cfg.pN then some (List.replicate (s.cfg.pH + 1) 0) else none) ∧
      p.hist = List.replicate s.cfg.pH false ∧
      p.lastPred = false ∧ p.needsTrain = false ∧ p.scrValid = false ∧ p.scrPc = 0) ∧
    (cfgOk s.cfg .custom = false → exec .initCustom s = .next { s with
      status := .faulted, faultCode := 2, faultCmd := 0xF000000000, response := some 0b0100#4 }) ∧
    (¬ (1 ≤ s.cfg.pH ∧ 1 ≤ s.cfg.pN ∧ 1 ≤ s.cfg.pWb ∧ s.cfg.pWb ≤ 32) → cfgOk s.cfg .custom = false)

/-! ### PREDICT and TRAIN, mode by mode -/

/-- R214 and R215: static PREDICT returns Taken, static TRAIN changes nothing. -/
def Obligations.StaticModeAlwaysTaken : Prop :=
  ∀ (s : State) (pc : Pc) (o : Bool), s.status = .ready → s.m = .static →
    exec (.predict pc) s = .next { s with response := some 0b0001#4 } ∧
    exec (.train pc o) s = .next { s with response := some 0b0000#4 }

/-- R131: gshare PREDICT reads the counter at the hashed index and writes nothing. -/
def Obligations.GsharePredictReadsHashedCounter : Prop :=
  ∀ (s : State) (g : Gshare) (pc : Pc), s.status = .ready → s.m = .gshare g →
    ∃ c : Counter,
      tabRead (phtShape s.cfg) g.pht ((pc.toNat % 2 ^ s.cfg.wG) ^^^ (g.ghr % 2 ^ s.cfg.wG)) = some c ∧
      exec (.predict pc) s = .next { s with response := some (if 2 ≤ c.toNat then 0b0001#4 else 0b0000#4) }

/-- R132: gshare TRAIN bumps the counter at the index of the old history, shifts the history, and leaves every
other counter and all other state as it was. -/
def Obligations.GshareTrainUpdatesOneCounter : Prop :=
  ∀ (s : State) (g : Gshare) (pc : Pc) (o : Bool), s.inv = true → s.status = .ready → s.m = .gshare g →
    ∃ (c : Counter) (g' : Gshare),
      tabRead (phtShape s.cfg) g.pht (gshareIdx s.cfg pc g.ghr) = some c ∧
      exec (.train pc o) s = .next { s with m := .gshare g', response := some 0#4 } ∧
      g'.ghr = (2 * g.ghr + o.toNat) % 2 ^ s.cfg.wG ∧
      tabRead (phtShape s.cfg) g'.pht (gshareIdx s.cfg pc g.ghr) = some (ctrBump c o) ∧
      ∀ j, j ≠ gshareIdx s.cfg pc g.ghr →
        tabRead (phtShape s.cfg) g'.pht j = tabRead (phtShape s.cfg) g.pht j

/-- R151: tournament PREDICT returns the sub-prediction that the chooser selects and writes nothing. -/
def Obligations.TournamentPredictSelectsByChooser : Prop :=
  ∀ (s : State) (t : Tournament) (pc : Pc), s.status = .ready → s.m = .tournament t →
    ∃ (ch lc gc : Counter) (h : Nat),
      tabRead (chooserShape s.cfg) t.chooser (t.ghr % 2 ^ s.cfg.wG) = some ch ∧
      tabRead (lhtShape s.cfg) t.lht (pc.toNat % 2 ^ s.cfg.wPc) = some h ∧
      tabRead (lphtShape s.cfg) t.lpht (h % 2 ^ s.cfg.wL) = some lc ∧
      tabRead (gphtShape s.cfg) t.gpht (t.ghr % 2 ^ s.cfg.wG) = some gc ∧
      exec (.predict pc) s = .next { s with
        response := some (if 2 ≤ (if ch.toNat ≤ 1 then lc.toNat else gc.toNat) then 0b0001#4 else 0b0000#4) }

/-- R152: tournament TRAIN updates one entry of each of the four tables and the global history, all from the state
before it, and leaves every other entry and all other state as it was. -/
def Obligations.TournamentTrainUpdatesFromOldState : Prop :=
  ∀ (s : State) (t : Tournament) (pc : Pc) (o : Bool), s.inv = true → s.status = .ready → s.m = .tournament t →
    ∃ (ch lc gc : Counter) (h : Nat) (t' : Tournament),
      tabRead (chooserShape s.cfg) t.chooser (tournGidx s.cfg t.ghr) = some ch ∧
      tabRead (lhtShape s.cfg) t.lht (tournPcidx s.cfg pc) = some h ∧
      tabRead (lphtShape s.cfg) t.lpht (tournLidx s.cfg h) = some lc ∧
      tabRead (gphtShape s.cfg) t.gpht (tournGidx s.cfg t.ghr) = some gc ∧
      exec (.train pc o) s = .next { s with m := .tournament t', response := some 0#4 } ∧
      tabRead (chooserShape s.cfg) t'.chooser (tournGidx s.cfg t.ghr)
        = some (chooserNext ch (ctrRead lc) (ctrRead gc) o) ∧
      tabRead (gphtShape s.cfg) t'.gpht (tournGidx s.cfg t.ghr) = some (ctrBump gc o) ∧
      tabRead (lphtShape s.cfg) t'.lpht (tournLidx s.cfg h) = some (ctrBump lc o) ∧
      tabRead (lhtShape s.cfg) t'.lht (tournPcidx s.cfg pc) = some ((2 * h + o.toNat) % 2 ^ s.cfg.wL) ∧
      t'.ghr = (2 * t.ghr + o.toNat) % 2 ^ s.cfg.wG ∧
      (∀ j, j ≠ tournGidx s.cfg t.ghr →
        tabRead (chooserShape s.cfg) t'.chooser j = tabRead (chooserShape s.cfg) t.chooser j ∧
        tabRead (gphtShape s.cfg) t'.gpht j = tabRead (gphtShape s.cfg) t.gpht j) ∧
      (∀ j, j ≠ tournLidx s.cfg h →
        tabRead (lphtShape s.cfg) t'.lpht j = tabRead (lphtShape s.cfg) t.lpht j) ∧
      (∀ j, j ≠ tournPcidx s.cfg pc →
        tabRead (lhtShape s.cfg) t'.lht j = tabRead (lhtShape s.cfg) t.lht j)

/-- R181: perceptron PREDICT returns the sign of the sum and writes the scratch registers and nothing else. -/
def Obligations.PerceptronPredictWritesScratchOnly : Prop :=
  ∀ (s : State) (p : Perceptron) (pc : Pc), s.inv = true → s.status = .ready → s.m = .perceptron p →
    ∃ row, readRow s.cfg p (percIdx s.cfg pc) = some row ∧
      exec (.predict pc) s = .next { s with
        m := .perceptron { p with
          lastPred := decide (0 ≤ percOut row p.hist),
          needsTrain := decide (-p.theta < percOut row p.hist ∧ percOut row p.hist < p.theta),
          scrValid := true, scrPc := pc },
        response := some (if 0 ≤ percOut row p.hist then 0b0001#4 else 0b0000#4) }

/-- R182: perceptron TRAIN without a matching PREDICT raises ORDER_VIOLATION; with one, it updates the row where the
prediction was wrong or its margin thin, shifts the window in every case, clears SCR_VALID, and leaves every other
row and all other state as it was. -/
def Obligations.PerceptronTrainUpdatesOneRow : Prop :=
  ∀ (s : State) (p : Perceptron) (pc : Pc) (o : Bool), s.inv = true → s.status = .ready → s.m = .perceptron p →
    (p.scrValid = false ∨ p.scrPc ≠ pc →
      exec (.train pc o) s = .next { s with
        status := .faulted, faultCode := 5,
        faultCmd := 0x8000000000#40 ||| ((BitVec.ofBool o).setWidth 40 <<< 35) ||| pc.setWidth 40,
        response := some 0b1010#4 }) ∧
    (p.scrValid = true ∧ p.scrPc = pc →
      ∃ (row : WeightRow) (w' : Table WeightRow),
        readRow s.cfg p (percIdx s.cfg pc) = some row ∧
        exec (.train pc o) s = .next { s with
          m := .perceptron { p with w := w', hist := windowShift p.hist o, scrValid := false },
          response := some 0#4 } ∧
        (p.lastPred = o ∧ p.needsTrain = false → w' = p.w) ∧
        (p.lastPred ≠ o ∨ p.needsTrain = true →
          tabRead (wShape s.cfg) w' (percIdx s.cfg pc) = some (percUpdate s.cfg row p.hist o)) ∧
        ∀ j, j ≠ percIdx s.cfg pc → tabRead (wShape s.cfg) w' j = tabRead (wShape s.cfg) p.w j)

/-- PREDICT changes no table and no history; in modes 0 to 2 it changes nothing but the response, and in every
mode a second PREDICT of the same pc leaves exactly the state and the response of the
first (R74, whose last clause the spec derives from R181). -/
def Obligations.PredictIsRepeatable : Prop :=
  ∀ (s s' : State) (pc : Pc), s.status = .ready → exec (.predict pc) s = .next s' →
    exec (.predict pc) s' = .next s' ∧
    ((∀ p, s.m ≠ .perceptron p) → s' = { s with response := s'.response }) ∧
    (∀ p, s.m = .perceptron p → ∃ b n, s' = { s with
      m := .perceptron { p with lastPred := b, needsTrain := n, scrValid := true, scrPc := pc },
      response := s'.response })

/-! ### Primitives -/

/-- The complete transition table of the counter (R102, which the spec derives from R100 and R101). -/
def Obligations.CounterTransitionTable : Prop :=
  (ctrRead 0 = false ∧ ctrBump 0 false = 0 ∧ ctrBump 0 true = 1) ∧
  (ctrRead 1 = false ∧ ctrBump 1 false = 0 ∧ ctrBump 1 true = 2) ∧
  (ctrRead 2 = true ∧ ctrBump 2 false = 1 ∧ ctrBump 2 true = 3) ∧
  (ctrRead 3 = true ∧ ctrBump 3 false = 2 ∧ ctrBump 3 true = 3)

/-- Repeated bumps reach the strong state and stay there; how soon the reading and the strong state follow (R103, which
the spec derives from R102). -/
def Obligations.CounterSaturatesAndStays : Prop :=
  ∀ (c : Counter) (o : Bool),
    (∀ n, 3 ≤ n → (fun x => ctrBump x o)^[n] c = if o then 3 else 0) ∧
    (∀ n, 2 ≤ n → ctrRead ((fun x => ctrBump x o)^[n] c) = o) ∧
    (c = (if o then 1 else 2) → ctrRead (ctrBump c o) = o ∧ ctrBump (ctrBump c o) o = if o then 3 else 0)

/-- R104: the new outcome enters at bit 0, every older bit moves up one place, and bit w-1 is discarded. -/
def Obligations.HistoryShiftsInAtBitZero : Prop :=
  ∀ (h : Nat) (o : Bool) (w : Nat), 1 ≤ w → h < 2 ^ w →
    histShift h o w < 2 ^ w ∧ (histShift h o w).testBit 0 = o ∧
    ∀ k, k + 1 < w → (histShift h o w).testBit (k + 1) = h.testBit k

/-- The window shifts toward the oldest end, and read as a number it is the history shifter of P_H bits (R105, whose
last clause the spec derives from R104). -/
def Obligations.WindowShiftIsHistoryShift : Prop :=
  ∀ (hist : List Bool) (o : Bool), 1 ≤ hist.length →
    (windowShift hist o).length = hist.length ∧ (windowShift hist o)[0]? = some o ∧
    (∀ j, j + 1 < hist.length → (windowShift hist o)[j + 1]? = hist[j]?) ∧
    windowNumber (windowShift hist o) = histShift (windowNumber hist) o hist.length

/-- R106: the bits of the gshare index, its corner cases, and which pcs always alias. -/
def Obligations.GshareIndexFoldsLowBits : Prop :=
  ∀ (cfg : Config) (pc : Pc) (ghr : Nat),
    (∀ k, (gshareIdx cfg pc ghr).testBit k = (decide (k < cfg.wG) && (pc.toNat.testBit k ^^ ghr.testBit k))) ∧
    gshareIdx cfg pc 0 = pc.toNat % 2 ^ cfg.wG ∧
    (cfg.wG = 32 → gshareIdx cfg pc 0 = pc.toNat) ∧
    (pc.toNat % 2 ^ cfg.wG = ghr → gshareIdx cfg pc ghr = 0) ∧
    (∀ pc' : Pc, pc'.toNat % 2 ^ cfg.wG = pc.toNat % 2 ^ cfg.wG → gshareIdx cfg pc' ghr = gshareIdx cfg pc ghr)

/-- Every index lies in range (R62, which the spec derives from R61 and the index rules). -/
def Obligations.IndicesStayInRange : Prop :=
  ∀ (cfg : Config) (pc : Pc) (h : Nat),
    gshareIdx cfg pc h < (phtShape cfg).size ∧
    tournGidx cfg h < (gphtShape cfg).size ∧ tournGidx cfg h < (chooserShape cfg).size ∧
    tournPcidx cfg pc < (lhtShape cfg).size ∧ tournLidx cfg h < (lphtShape cfg).size ∧
    (1 ≤ cfg.pN → percIdx cfg pc < (wShape cfg).size)

/-- R107 to R109: the tournament indices are the low bits; the pc takes no part in the global one; the mask changes
no kept local history; pcs that are equal modulo 2^W_pc share one LHT entry. -/
def Obligations.TournamentIndicesAreLowBits : Prop :=
  ∀ (cfg : Config) (pc : Pc) (h : Nat),
    tournGidx cfg h = h % 2 ^ cfg.wG ∧
    tournPcidx cfg pc = pc.toNat % 2 ^ cfg.wPc ∧
    tournLidx cfg h = h % 2 ^ cfg.wL ∧ (h < 2 ^ cfg.wL → tournLidx cfg h = h) ∧
    (∀ pc' : Pc, pc'.toNat % 2 ^ cfg.wPc = pc.toNat % 2 ^ cfg.wPc → tournPcidx cfg pc' = tournPcidx cfg pc)

/-- R110: the perceptron hash with and without wrap, its aliases, and where the two settings first differ with the
default multiplier. -/
def Obligations.PerceptronHashWithAndWithoutWrap : Prop :=
  ∀ (cfg : Config) (pc : Pc),
    (cfg.pHashWrap = true → percIdx cfg pc = (pc.toNat * cfg.pMul) % 2 ^ 32 % cfg.pN) ∧
    (cfg.pHashWrap = false → percIdx cfg pc = (pc.toNat * cfg.pMul) % cfg.pN) ∧
    percIdx cfg 0 = 0 ∧
    (cfg.pHashWrap = false → ∀ pc' : Pc, pc'.toNat = pc.toNat + cfg.pN → percIdx cfg pc' = percIdx cfg pc) ∧
    (cfg.pMul = 19 → pc.toNat < 0x0D79435F →
      percIdx { cfg with pHashWrap := true } pc = percIdx { cfg with pHashWrap := false } pc) ∧
    (cfg.pMul = 19 → cfg.pN = 426 →
      percIdx { cfg with pHashWrap := true } 0x0D79435F = 13 ∧
      percIdx { cfg with pHashWrap := false } 0x0D79435F = 377)

/-- R112 and R113: which side the chooser selects, and where it moves. -/
def Obligations.ChooserSelectsAndMoves : Prop :=
  ∀ (ch : Counter) (lp gp o : Bool),
    (ch.toNat ≤ 1 → chooserSelect ch lp gp = lp) ∧ (2 ≤ ch.toNat → chooserSelect ch lp gp = gp) ∧
    (gp = o ∧ lp ≠ o → (chooserNext ch lp gp o).toNat = min 3 (ch.toNat + 1)) ∧
    (gp ≠ o ∧ lp = o → (chooserNext ch lp gp o).toNat = ch.toNat - 1) ∧
    (gp = lp → chooserNext ch lp gp o = ch)

/-- Whatever the command, a CHOOSER entry moves only on a TRAIN, at the index of the old history, by one step,
and in the direction that the sub-predictions from before the TRAIN give (R153, which the spec derives from R152
and R113). -/
def Obligations.ChooserEntriesMoveByOldPredictions : Prop :=
  ∀ (c : Cmd) (s s' : State) (t t' : Tournament), s.inv = true → s.status = .ready → issue c s = .next s' →
    s.m = .tournament t → s'.m = .tournament t' →
    ∀ (j : Nat) (ch ch' : Counter),
      tabRead (chooserShape s.cfg) t.chooser j = some ch → tabRead (chooserShape s.cfg) t'.chooser j = some ch' →
      ch' = ch ∨
      ∃ (pc : Pc) (o : Bool) (h : Nat) (lc gc : Counter),
        decode c = .ok (.train pc o) ∧ j = tournGidx s.cfg t.ghr ∧
        tabRead (lhtShape s.cfg) t.lht (tournPcidx s.cfg pc) = some h ∧
        tabRead (lphtShape s.cfg) t.lpht (tournLidx s.cfg h) = some lc ∧
        tabRead (gphtShape s.cfg) t.gpht j = some gc ∧
        ((ctrRead gc = o ∧ ctrRead lc ≠ o ∧ ch'.toNat = ch.toNat + 1) ∨
         (ctrRead gc ≠ o ∧ ctrRead lc = o ∧ ch'.toNat + 1 = ch.toNat))

/-- On a TRAIN at which the old sub-predictions disagree, the chooser moves toward the one that was right,
clamped; and the example of the rule, where the GPHT entry reads Taken after the bump and the chooser still moves
down (R154, which the spec derives from R152). -/
def Obligations.ChooserFollowsTheOldRightSide : Prop :=
  ∀ (s : State) (t : Tournament) (pc : Pc) (o : Bool) (ch lc gc : Counter) (h : Nat),
    s.inv = true → s.status = .ready → s.m = .tournament t →
    tabRead (chooserShape s.cfg) t.chooser (tournGidx s.cfg t.ghr) = some ch →
    tabRead (lhtShape s.cfg) t.lht (tournPcidx s.cfg pc) = some h →
    tabRead (lphtShape s.cfg) t.lpht (tournLidx s.cfg h) = some lc →
    tabRead (gphtShape s.cfg) t.gpht (tournGidx s.cfg t.ghr) = some gc →
    ctrRead lc ≠ ctrRead gc →
    ∃ (s' : State) (t' : Tournament) (ch' gc' : Counter),
      exec (.train pc o) s = .next s' ∧ s'.m = .tournament t' ∧
      tabRead (chooserShape s.cfg) t'.chooser (tournGidx s.cfg t.ghr) = some ch' ∧
      tabRead (gphtShape s.cfg) t'.gpht (tournGidx s.cfg t.ghr) = some gc' ∧
      ch'.toNat = (if ctrRead gc = o then min 3 (ch.toNat + 1) else ch.toNat - 1) ∧
      (gc = 1 ∧ lc = 2 ∧ o = true → ctrRead gc' = o ∧ ch'.toNat = ch.toNat - 1)

/-- R114: the sum is exact, and its magnitude is at most (P_H + 1) · 2^(P_WB-1). -/
def Obligations.PerceptronSumIsExactAndBounded : Prop :=
  ∀ (cfg : Config) (bias : Int) (ws : List Int) (hist : List Bool), ws.length = hist.length →
    percOut (bias :: ws) hist = bias + (List.zipWith (fun wt h => if h then wt else -wt) ws hist).sum ∧
    (rowBounded cfg (bias :: ws) = true →
      (percOut (bias :: ws) hist).natAbs ≤ (hist.length + 1) * 2 ^ (cfg.pWb - 1))

/-- R115: every lane moves by its own weight and history bit, and saturates. -/
def Obligations.PerceptronUpdateMovesEachLane : Prop :=
  ∀ (cfg : Config) (row : WeightRow) (hist : List Bool) (o : Bool), row.length = hist.length + 1 →
    (percUpdate cfg row hist o).length = row.length ∧
    (∀ b, row[0]? = some b →
      (percUpdate cfg row hist o)[0]? = some (sat (if o then b + 1 else b - 1) (wMin cfg) (wMax cfg))) ∧
    (∀ (i : Nat) (x : Int) (h : Bool), row[i + 1]? = some x → hist[i]? = some h →
      (percUpdate cfg row hist o)[i + 1]?
        = some (sat (if o = h then x + 1 else x - 1) (wMin cfg) (wMax cfg)))

/-- R116: both comparisons of the margin are strict, and y = 0 predicts Taken. -/
def Obligations.PerceptronFlagsAreStrict : Prop :=
  ∀ theta y : Int,
    (percPred y = true ↔ 0 ≤ y) ∧ (percNeeds theta y = true ↔ -theta < y ∧ y < theta) ∧
    percPred 0 = true ∧ percNeeds theta theta = false ∧ percNeeds theta (-theta) = false ∧
    (1 ≤ theta → percNeeds theta (theta - 1) = true ∧ percPred (-theta) = false)

/-- R15: the threshold is floor((193 P_H + 1450) / 100), which is 1.93 P_H + 14 rounded to the nearest integer, halves
upward, unless `cfg` overrides it. -/
def Obligations.ThresholdRoundsHalvesUpward : Prop :=
  ∀ cfg : Config,
    (cfg.pTheta = none →
      pTheta cfg = ((193 * cfg.pH + 1450) / 100 : Nat) ∧ (cfg.pH = 50 → pTheta cfg = 111) ∧
      100 * pTheta cfg ≤ 193 * cfg.pH + 1400 + 50 ∧ 193 * cfg.pH + 1400 + 50 < 100 * pTheta cfg + 100 ∧
      14 ≤ pTheta cfg) ∧
    (∀ t, cfg.pTheta = some t → pTheta cfg = t)

/-! ### Rules about sequences of commands and about the whole machine -/

/-- The responses to any command sequence and the gshare state after it depend on W_g, the gshare state and
the sequence alone, whatever else the two blocks hold (R133, which the spec derives from R130 to R132). -/
def Obligations.GshareRunsAreDeterminedByTheSequence : Prop :=
  ∀ (s₁ s₂ : State) (g : Gshare) (cs : List Cmd),
    s₁.status = .ready → s₂.status = .ready → s₁.m = .gshare g → s₂.m = .gshare g → s₁.cfg.wG = s₂.cfg.wG →
    responses cs s₁ = responses cs s₂ ∧
    ∃ t₁ t₂, issueAll cs s₁ = .next t₁ ∧ issueAll cs s₂ = .next t₂ ∧ t₁.m = t₂.m ∧ t₁.status = t₂.status

/-- A constantly trained branch fixes the history after W_g TRAINs; PREDICT then follows the outcome two TRAINs
later from any state, one TRAIN later where the counter is in the weak state of the opposite direction, and after
W_g + 1 TRAINs from a fresh table (R134, which the spec derives from R132 and R103). -/
def Obligations.GshareConvergesOnConstantBranch : Prop :=
  ∀ (s : State) (g : Gshare) (pc : Pc) (o : Bool) (n : Nat),
    s.inv = true → s.status = .ready → s.m = .gshare g →
    ∃ (s' : State) (g' : Gshare), issueAll (trainsOf pc o n) s = .next s' ∧ s'.m = .gshare g' ∧
      (s.cfg.wG ≤ n → g'.ghr = if o then 2 ^ s.cfg.wG - 1 else 0) ∧
      (s.cfg.wG + 2 ≤ n →
        ∃ t, exec (.predict pc) s' = .next t ∧ t.response = some (if o then 0b0001#4 else 0b0000#4)) ∧
      (g.ghr = (if o then 2 ^ s.cfg.wG - 1 else 0) → 1 ≤ n →
        tabRead (phtShape s.cfg) g.pht (gshareIdx s.cfg pc g.ghr) = some (if o then 1 else 2) →
        ∃ t, exec (.predict pc) s' = .next t ∧ t.response = some (if o then 0b0001#4 else 0b0000#4)) ∧
      (s.cfg.wG + 1 ≤ n → g = { ghr := 0, pht := [] } →
        ∃ t, exec (.predict pc) s' = .next t ∧ t.response = some (if o then 0b0001#4 else 0b0000#4))

/-- After a PREDICT and its TRAIN with the predicted outcome, no weight has changed where the margin reached
P_THETA, and the bias weight has moved by one where it did not, unless it was at its bound (R183, which the spec
derives from R182 and R115). -/
def Obligations.PerceptronTrainsOnThinMargin : Prop :=
  ∀ (s : State) (p : Perceptron) (pc : Pc) (row : WeightRow) (o : Bool),
    s.inv = true → s.status = .ready → s.m = .perceptron p →
    readRow s.cfg p (percIdx s.cfg pc) = some row → o = decide (0 ≤ percOut row p.hist) →
    ∃ (s' : State) (p' : Perceptron), issueAll (pairedStep (pc, o)) s = .next s' ∧ s'.m = .perceptron p' ∧
      (p.theta ≤ (percOut row p.hist).natAbs → p'.w = p.w) ∧
      (((percOut row p.hist).natAbs : Int) < p.theta →
        ∃ (row' : WeightRow) (b b' : Int), readRow s.cfg p' (percIdx s.cfg pc) = some row' ∧
          row[0]? = some b ∧ row'[0]? = some b' ∧
          b' = (if o then (if b = wMax s.cfg then b else b + 1) else (if b = wMin s.cfg then b else b - 1)))

/-- No command sequence takes a weight outside [WMIN, WMAX], and a lane driven in one direction reaches its
bound and stays there (R184, which the spec derives from R115). -/
def Obligations.PerceptronWeightsStayBounded : Prop :=
  (∀ (s s' : State) (p' : Perceptron) (cs : List Cmd) (r : Nat) (row : WeightRow),
    s.inv = true → issueAll cs s = .next s' → s'.m = .perceptron p' →
    readRow s'.cfg p' r = some row → ∀ x ∈ row, wMin s'.cfg ≤ x ∧ x ≤ wMax s'.cfg) ∧
  (∀ (cfg : Config) (x : Int) (up : Bool) (n : Nat),
    wMin cfg ≤ x → x ≤ wMax cfg → 2 ^ cfg.pWb ≤ n →
    (fun y => laneStep cfg y up)^[n] x = if up then wMax cfg else wMin cfg)

/-- A harness that boots the block with a configuration its mode accepts and pairs every PREDICT with its TRAIN
never sees a fault, and gets one response for every command (spec/70_reset_and_hazards.md R262, R264). -/
def Obligations.HarnessContractNeverFaults : Prop :=
  ∀ (cfg : Config) (m : Mode) (branches : List (Pc × Bool)), cfgOk cfg m = true →
    ∃ s', issueAll (contractStream m branches) (State.resetWith cfg) = .next s' ∧
      s'.status = .ready ∧ s'.mode = some m ∧ s'.faultCode = 0 ∧
      (responses (contractStream m branches) (State.resetWith cfg)).length = 2 * branches.length + 1 ∧
      ∀ r ∈ responses (contractStream m branches) (State.resetWith cfg), r = some 0b0000#4 ∨ r = some 0b0001#4

/-- The invariant holds after reset, and after hardware reset under any configuration. -/
def Obligations.InvariantHoldsAtReset : Prop :=
  State.reset.inv = true ∧ ∀ cfg : Config, (State.resetWith cfg).inv = true

/-- Every step keeps the invariant: STATUS, MODE and the fault record agree, the registers fit their widths, the
tables keep their canonical form and their sizes, the weights their bounds, P_THETA its value, and a valid scratch
stays what a PREDICT of its pc would write. -/
def Obligations.StepKeepsInvariant : Prop :=
  ∀ s s' : State, s.inv = true → step s = .next s' → s'.inv = true

/-- No state that satisfies the invariant stops the machine: no step faults or refuses, so no counter and no index
is ever out of range and no absent state is ever read (spec/60_exceptions.md R236, R237, spec/20_memory.md R62,
spec/93_implementation_defined.md items 1, 4 and 14). -/
def Obligations.NoStepStopsTheMachine : Prop :=
  ∀ s : State, s.inv = true → ∃ s', step s = .next s'

/-- The step of a harness that pairs every PREDICT with its TRAIN, from every READY state with the invariant, in every
mode: neither command faults, the PREDICT answers the mode's prediction, the TRAIN answers 0, and the block is READY in
the same mode, with the same configuration and the invariant (spec/70_reset_and_hazards.md R264). -/
def Obligations.PairedStepNeverFaults : Prop :=
  ∀ (s : State) (b : Pc × Bool), s.inv = true → s.status = .ready →
    ∃ (s' : State) (taken : Bool),
      issueAll (pairedStep b) s = .next s' ∧ s'.status = .ready ∧ s'.mode = s.mode ∧ s'.cfg = s.cfg ∧
      s'.inv = true ∧ s'.faultCode = 0 ∧ s.m.prediction s.cfg b.1 = some taken ∧
      responses (pairedStep b) s = [some (if taken then 0b0001#4 else 0b0000#4), some 0b0000#4]
end

