-- ==== Sys2Proof/Laws/State.lean ====
section
/-! SUPPORT. One lemma for each field of State under each shared update of it, true by rfl, and the MODE register of each
kind of `M`. -/

namespace Sys2Proof.Machine

@[simp] theorem State.accept_cfg (b : Bool) (s : State) : (s.accept b).cfg = s.cfg := rfl
@[simp] theorem State.accept_status (b : Bool) (s : State) : (s.accept b).status = s.status := rfl
@[simp] theorem State.accept_faultCode (b : Bool) (s : State) : (s.accept b).faultCode = s.faultCode := rfl
@[simp] theorem State.accept_faultCmd (b : Bool) (s : State) : (s.accept b).faultCmd = s.faultCmd := rfl
@[simp] theorem State.accept_m (b : Bool) (s : State) : (s.accept b).m = s.m := rfl
@[simp] theorem State.accept_response (b : Bool) (s : State) : (s.accept b).response = some (responseWord b 0) := rfl
@[simp] theorem State.accept_port (b : Bool) (s : State) : (s.accept b).port = s.port := rfl

@[simp] theorem State.raise_cfg (f : FaultCause) (c : Cmd) (s : State) : (s.raise f c).cfg = s.cfg := rfl
@[simp] theorem State.raise_status (f : FaultCause) (c : Cmd) (s : State) : (s.raise f c).status = .faulted := rfl
@[simp] theorem State.raise_faultCode (f : FaultCause) (c : Cmd) (s : State) : (s.raise f c).faultCode = f.code := rfl
@[simp] theorem State.raise_faultCmd (f : FaultCause) (c : Cmd) (s : State) : (s.raise f c).faultCmd = c := rfl
@[simp] theorem State.raise_m (f : FaultCause) (c : Cmd) (s : State) : (s.raise f c).m = s.m := rfl
@[simp] theorem State.raise_response (f : FaultCause) (c : Cmd) (s : State) : (s.raise f c).response = some (responseWord false f.code) := rfl
@[simp] theorem State.raise_port (f : FaultCause) (c : Cmd) (s : State) : (s.raise f c).port = s.port := rfl

@[simp] theorem State.ignore_cfg (s : State) : (s.ignore).cfg = s.cfg := rfl
@[simp] theorem State.ignore_status (s : State) : (s.ignore).status = s.status := rfl
@[simp] theorem State.ignore_faultCode (s : State) : (s.ignore).faultCode = s.faultCode := rfl
@[simp] theorem State.ignore_faultCmd (s : State) : (s.ignore).faultCmd = s.faultCmd := rfl
@[simp] theorem State.ignore_m (s : State) : (s.ignore).m = s.m := rfl
@[simp] theorem State.ignore_response (s : State) : (s.ignore).response = some (responseWord false s.faultCode) := rfl
@[simp] theorem State.ignore_port (s : State) : (s.ignore).port = s.port := rfl

@[simp] theorem State.hardwareReset_cfg (cfg : Config) (s : State) : (s.hardwareReset cfg).cfg = cfg := rfl
@[simp] theorem State.hardwareReset_status (cfg : Config) (s : State) : (s.hardwareReset cfg).status = .uninit := rfl
@[simp] theorem State.hardwareReset_faultCode (cfg : Config) (s : State) : (s.hardwareReset cfg).faultCode = 0 := rfl
@[simp] theorem State.hardwareReset_faultCmd (cfg : Config) (s : State) : (s.hardwareReset cfg).faultCmd = 0 := rfl
@[simp] theorem State.hardwareReset_m (cfg : Config) (s : State) : (s.hardwareReset cfg).m = .absent := rfl
@[simp] theorem State.hardwareReset_response (cfg : Config) (s : State) : (s.hardwareReset cfg).response = none := rfl
@[simp] theorem State.hardwareReset_port (cfg : Config) (s : State) : (s.hardwareReset cfg).port = s.port := rfl

@[simp] theorem State.offer_cfg (c : Cmd) (s : State) : (s.offer c).cfg = s.cfg := rfl
@[simp] theorem State.offer_status (c : Cmd) (s : State) : (s.offer c).status = s.status := rfl
@[simp] theorem State.offer_faultCode (c : Cmd) (s : State) : (s.offer c).faultCode = s.faultCode := rfl
@[simp] theorem State.offer_faultCmd (c : Cmd) (s : State) : (s.offer c).faultCmd = s.faultCmd := rfl
@[simp] theorem State.offer_m (c : Cmd) (s : State) : (s.offer c).m = s.m := rfl
@[simp] theorem State.offer_response (c : Cmd) (s : State) : (s.offer c).response = s.response := rfl
@[simp] theorem State.offer_port (c : Cmd) (s : State) : (s.offer c).port = .command c :: s.port := rfl

@[simp] theorem State.enqueue_cfg (cs : List Cmd) (s : State) : (s.enqueue cs).cfg = s.cfg := rfl
@[simp] theorem State.enqueue_status (cs : List Cmd) (s : State) : (s.enqueue cs).status = s.status := rfl
@[simp] theorem State.enqueue_faultCode (cs : List Cmd) (s : State) : (s.enqueue cs).faultCode = s.faultCode := rfl
@[simp] theorem State.enqueue_faultCmd (cs : List Cmd) (s : State) : (s.enqueue cs).faultCmd = s.faultCmd := rfl
@[simp] theorem State.enqueue_m (cs : List Cmd) (s : State) : (s.enqueue cs).m = s.m := rfl
@[simp] theorem State.enqueue_response (cs : List Cmd) (s : State) : (s.enqueue cs).response = s.response := rfl
@[simp] theorem State.enqueue_port (cs : List Cmd) (s : State) : (s.enqueue cs).port = s.port ++ cs.map .command := rfl

@[simp] theorem State.resetWith_cfg (cfg : Config) : (State.resetWith cfg).cfg = cfg := rfl
@[simp] theorem State.resetWith_status (cfg : Config) : (State.resetWith cfg).status = .uninit := rfl
@[simp] theorem State.resetWith_faultCode (cfg : Config) : (State.resetWith cfg).faultCode = 0 := rfl
@[simp] theorem State.resetWith_faultCmd (cfg : Config) : (State.resetWith cfg).faultCmd = 0 := rfl
@[simp] theorem State.resetWith_m (cfg : Config) : (State.resetWith cfg).m = .absent := rfl
@[simp] theorem State.resetWith_response (cfg : Config) : (State.resetWith cfg).response = none := rfl
@[simp] theorem State.resetWith_port (cfg : Config) : (State.resetWith cfg).port = [] := rfl

@[simp] theorem Predictor.mode_absent : Predictor.absent.mode = none := rfl
@[simp] theorem Predictor.mode_static : Predictor.static.mode = some .static := rfl
@[simp] theorem Predictor.mode_gshare (g : Gshare) : (Predictor.gshare g).mode = some .gshare := rfl
@[simp] theorem Predictor.mode_tournament (t : Tournament) : (Predictor.tournament t).mode = some .tournament := rfl
@[simp] theorem Predictor.mode_perceptron (p : Perceptron) : (Predictor.perceptron p).mode = some .custom := rfl

@[simp] theorem phtShape_size (cfg : Config) : (phtShape cfg).size = 2 ^ cfg.wG := rfl
@[simp] theorem phtShape_init (cfg : Config) : (phtShape cfg).init = 1 := rfl
@[simp] theorem gphtShape_size (cfg : Config) : (gphtShape cfg).size = 2 ^ cfg.wG := rfl
@[simp] theorem gphtShape_init (cfg : Config) : (gphtShape cfg).init = 1 := rfl
@[simp] theorem chooserShape_size (cfg : Config) : (chooserShape cfg).size = 2 ^ cfg.wG := rfl
@[simp] theorem chooserShape_init (cfg : Config) : (chooserShape cfg).init = 2 := rfl
@[simp] theorem lhtShape_size (cfg : Config) : (lhtShape cfg).size = 2 ^ cfg.wPc := rfl
@[simp] theorem lhtShape_init (cfg : Config) : (lhtShape cfg).init = 0 := rfl
@[simp] theorem lphtShape_size (cfg : Config) : (lphtShape cfg).size = 2 ^ cfg.wL := rfl
@[simp] theorem lphtShape_init (cfg : Config) : (lphtShape cfg).init = 1 := rfl
@[simp] theorem wShape_size (cfg : Config) : (wShape cfg).size = cfg.pN := rfl
@[simp] theorem wShape_init (cfg : Config) : (wShape cfg).init = List.replicate (cfg.pH + 1) 0 := rfl

/-- The response of an accepted command has FAULT = 0 and its PRED (R87). -/
@[simp] theorem Response.fault_responseWord (b : Bool) (code : FaultBits) : Response.fault (responseWord b code) = code := by
  revert b code; decide
@[simp] theorem Response.pred_responseWord (b : Bool) (code : FaultBits) : Response.pred (responseWord b code) = b := by
  revert b code; decide

end Sys2Proof.Machine
end

