-- ==== Sys2Proof/Laws/Indices.lean ====
section
/-! SUPPORT. Masks, index hashes and history shifters as remainders, and the bounds that follow. -/

namespace Sys2Proof.Machine

/-- Masking to `w` bits is the remainder modulo 2^w. -/
theorem and_mask (x w : Nat) : x &&& mask w = x % 2 ^ w := Nat.and_two_pow_sub_one_eq_mod x w

theorem mod_two_pow_lt (x w : Nat) : x % 2 ^ w < 2 ^ w := Nat.mod_lt _ (Nat.two_pow_pos w)

theorem tournGidx_eq (cfg : Config) (ghr : Nat) : tournGidx cfg ghr = ghr % 2 ^ cfg.wG := and_mask _ _
theorem tournPcidx_eq (cfg : Config) (pc : Pc) : tournPcidx cfg pc = pc.toNat % 2 ^ cfg.wPc := and_mask _ _
theorem tournLidx_eq (cfg : Config) (e : Nat) : tournLidx cfg e = e % 2 ^ cfg.wL := and_mask _ _
theorem gshareIdx_eq (cfg : Config) (pc : Pc) (ghr : Nat) :
    gshareIdx cfg pc ghr = (pc.toNat % 2 ^ cfg.wG) ^^^ (ghr % 2 ^ cfg.wG) := by
  simp [gshareIdx, and_mask]

theorem gshareIdx_lt (cfg : Config) (pc : Pc) (ghr : Nat) : gshareIdx cfg pc ghr < 2 ^ cfg.wG := by
  rw [gshareIdx_eq]
  exact Nat.xor_lt_two_pow (mod_two_pow_lt _ _) (mod_two_pow_lt _ _)
theorem tournGidx_lt (cfg : Config) (ghr : Nat) : tournGidx cfg ghr < 2 ^ cfg.wG := by
  rw [tournGidx_eq]; exact mod_two_pow_lt _ _
theorem tournPcidx_lt (cfg : Config) (pc : Pc) : tournPcidx cfg pc < 2 ^ cfg.wPc := by
  rw [tournPcidx_eq]; exact mod_two_pow_lt _ _
theorem tournLidx_lt (cfg : Config) (e : Nat) : tournLidx cfg e < 2 ^ cfg.wL := by
  rw [tournLidx_eq]; exact mod_two_pow_lt _ _
theorem percIdx_lt (cfg : Config) (pc : Pc) (h : 1 ≤ cfg.pN) : percIdx cfg pc < cfg.pN := Nat.mod_lt _ h

/-- The history shifter as arithmetic: double, add the outcome, keep `w` bits (R104). -/
theorem histShift_eq (h : Nat) (o : Bool) (w : Nat) : histShift h o w = (2 * h + o.toNat) % 2 ^ w := by
  have hor : h <<< 1 ||| o.toNat = 2 * h + o.toNat := by
    have := Nat.two_pow_add_eq_or_of_lt (i := 1) (b := o.toNat) (by cases o <;> simp) h
    rw [Nat.shiftLeft_eq, Nat.mul_comm, ← this, Nat.pow_one]
  rw [histShift, hor, and_mask]

theorem histShift_lt (h : Nat) (o : Bool) (w : Nat) : histShift h o w < 2 ^ w := by
  rw [histShift_eq]; exact mod_two_pow_lt _ _

@[simp] theorem windowShift_length (hist : List Bool) (o : Bool) : (windowShift hist o).length = hist.length := by
  simp [windowShift]

end Sys2Proof.Machine
end

