-- ==== Sys2Proof/Laws/Tables.lean ====
section
/-! SUPPORT. The laws of tables: a read after a write, the canonical form and what keeps it, and equality of tables that
read alike. -/

namespace Sys2Proof.Machine

variable {α : Type} [DecidableEq α]

/-- Unfolds the canonical form once. -/
theorem Table.wfFrom_cons {d x : α} {size lo k : Nat} {t : Table α} :
    Table.wfFrom d size lo ((k, x) :: t) = true ↔
      lo ≤ k ∧ k < size ∧ x ≠ d ∧ Table.wfFrom d size (k + 1) t = true := by
  simp [Table.wfFrom, and_assoc]

/-- The canonical form from a lower start. -/
theorem Table.wfFrom_mono {d : α} {size lo lo' : Nat} {t : Table α} (h : Table.wfFrom d size lo t = true)
    (hlo : lo' ≤ lo) : Table.wfFrom d size lo' t = true := by
  cases t with
  | nil => rfl
  | cons e t =>
    obtain ⟨k, x⟩ := e
    rw [Table.wfFrom_cons] at h ⊢
    exact ⟨by omega, h.2⟩

/-- An index below the first listed one reads as the initial value. -/
theorem Table.lookup_below {d : α} {size lo i : Nat} {t : Table α} (h : Table.wfFrom d size lo t = true)
    (hi : i < lo) : t.lookup d i = d := by
  induction t generalizing lo with
  | nil => rfl
  | cons e t ih =>
    obtain ⟨k, x⟩ := e
    obtain ⟨h1, -, -, h4⟩ := Table.wfFrom_cons.mp h
    have hne : i ≠ k := by omega
    simpa [Table.lookup, hne] using ih h4 (by omega)

/-- A write leaves every other entry alone. -/
theorem Table.lookup_store_ne {d v : α} {i j : Nat} (t : Table α) (hij : j ≠ i) :
    (t.store d i v).lookup d j = t.lookup d j := by
  induction t with
  | nil => by_cases hv : v = d <;> simp [Table.store, Table.lookup, hv, hij]
  | cons e t ih =>
    obtain ⟨k, x⟩ := e
    by_cases h1 : i < k
    · by_cases hv : v = d <;> simp [Table.store, Table.lookup, h1, hv, hij]
    · by_cases h2 : i = k
      · subst h2
        by_cases hv : v = d <;> simp [Table.store, Table.lookup, hv, hij]
      · simp [Table.store, Table.lookup, h1, h2, ih]

/-- A read of the entry just written gives the value written. -/
theorem Table.lookup_store_same {d v : α} {size lo i : Nat} {t : Table α}
    (h : Table.wfFrom d size lo t = true) : (t.store d i v).lookup d i = v := by
  induction t generalizing lo with
  | nil => by_cases hv : v = d <;> simp [Table.store, Table.lookup, hv]
  | cons e t ih =>
    obtain ⟨k, x⟩ := e
    obtain ⟨-, -, -, h4⟩ := Table.wfFrom_cons.mp h
    by_cases h1 : i < k
    · have hne : i ≠ k := by omega
      by_cases hv : v = d
      · simp [Table.store, Table.lookup, h1, hv, hne, Table.lookup_below h4 (show i < k + 1 by omega)]
      · simp [Table.store, Table.lookup, h1, hv]
    · by_cases h2 : i = k
      · subst h2
        by_cases hv : v = d
        · simp [Table.store, hv, Table.lookup_below h4 (Nat.lt_succ_self i)]
        · simp [Table.store, Table.lookup, hv]
      · simp [Table.store, Table.lookup, h1, h2, ih h4]

/-- A write inside the table keeps the canonical form. -/
theorem Table.wfFrom_store {d v : α} {size lo i : Nat} {t : Table α} (h : Table.wfFrom d size lo t = true)
    (hlo : lo ≤ i) (hi : i < size) : Table.wfFrom d size lo (t.store d i v) = true := by
  induction t generalizing lo with
  | nil => by_cases hv : v = d <;> simp [Table.store, Table.wfFrom, hv, hlo, hi]
  | cons e t ih =>
    obtain ⟨k, x⟩ := e
    obtain ⟨h1, h2, h3, h4⟩ := Table.wfFrom_cons.mp h
    by_cases hik : i < k
    · by_cases hv : v = d
      · simpa [Table.store, hik, hv] using h
      · simp only [Table.store, hik, hv, if_true, if_false]
        exact Table.wfFrom_cons.mpr ⟨hlo, hi, hv, Table.wfFrom_cons.mpr ⟨hik, h2, h3, h4⟩⟩
    · by_cases heq : i = k
      · subst heq
        by_cases hv : v = d
        · simpa [Table.store, hv] using Table.wfFrom_mono h4 (by omega)
        · simpa [Table.store, hv] using Table.wfFrom_cons.mpr ⟨h1, h2, hv, h4⟩
      · simp only [Table.store, hik, heq, if_false]
        exact Table.wfFrom_cons.mpr ⟨h1, h2, h3, ih h4 (by omega)⟩

/-- Two canonical tables that read alike are equal. -/
theorem Table.eq_of_lookup {d : α} {size lo : Nat} {t t' : Table α} (h : Table.wfFrom d size lo t = true)
    (h' : Table.wfFrom d size lo t' = true) (heq : ∀ i, t.lookup d i = t'.lookup d i) : t = t' := by
  induction t generalizing lo t' with
  | nil =>
    cases t' with
    | nil => rfl
    | cons e t' =>
      obtain ⟨k, x⟩ := e
      exact absurd (by simpa [Table.lookup] using (heq k).symm) (Table.wfFrom_cons.mp h').2.2.1
  | cons e t ih =>
    obtain ⟨k, x⟩ := e
    obtain ⟨-, -, h3, h4⟩ := Table.wfFrom_cons.mp h
    cases t' with
    | nil => exact absurd (by simpa [Table.lookup] using heq k) h3
    | cons e' t' =>
      obtain ⟨k', x'⟩ := e'
      obtain ⟨-, -, h3', h4'⟩ := Table.wfFrom_cons.mp h'
      have hk : k = k' := by
        rcases Nat.lt_trichotomy k k' with hlt | rfl | hlt
        · have hb := Table.lookup_below h4' (show k < k' + 1 by omega)
          have hx := heq k
          simp only [Table.lookup, if_true, Nat.ne_of_lt hlt, if_false, hb] at hx
          exact absurd hx h3
        · rfl
        · have hb := Table.lookup_below h4 (show k' < k + 1 by omega)
          have hx := heq k'
          simp only [Table.lookup, if_true, Nat.ne_of_lt hlt, if_false, hb] at hx
          exact absurd hx.symm h3'
      subst hk
      have hx : x = x' := by simpa [Table.lookup] using heq k
      subst hx
      refine congrArg _ (ih h4 h4' fun i => ?_)
      by_cases hik : i = k
      · subst hik
        rw [Table.lookup_below h4 (Nat.lt_succ_self i), Table.lookup_below h4' (Nat.lt_succ_self i)]
      · simpa [Table.lookup, hik] using heq i

omit [DecidableEq α] in
/-- What holds of every listed entry and of the initial value holds of every entry. -/
theorem Table.lookup_of_all {d : α} {P : α → Prop} {t : Table α} (hd : P d) (ht : ∀ e ∈ t, P e.2) (i : Nat) :
    P (t.lookup d i) := by
  induction t with
  | nil => exact hd
  | cons e t ih =>
    obtain ⟨k, x⟩ := e
    by_cases hik : i = k
    · simpa [Table.lookup, hik] using ht (k, x) (by simp)
    · simpa [Table.lookup, hik] using ih fun e he => ht e (by simp [he])

/-- Every entry listed after a write was listed before it, or is the one written. -/
theorem Table.mem_store {d v : α} {i : Nat} {t : Table α} {e : Nat × α} (h : e ∈ t.store d i v) :
    e ∈ t ∨ e = (i, v) := by
  induction t with
  | nil =>
    by_cases hv : v = d
    · simp [Table.store, hv] at h
    · exact .inr (by simpa [Table.store, hv] using h)
  | cons a t ih =>
    obtain ⟨k, x⟩ := a
    by_cases h1 : i < k
    · by_cases hv : v = d
      · exact .inl (by simpa [Table.store, h1, hv] using h)
      · simp only [Table.store, h1, hv, if_true, if_false, List.mem_cons] at h
        rcases h with h | h
        · exact .inr h
        · exact .inl (by simpa using h)
    · by_cases h2 : i = k
      · by_cases hv : v = d
        · exact .inl (List.mem_cons_of_mem _ (by simpa [Table.store, h2, hv] using h))
        · simp only [Table.store, h2, hv, if_true, if_false, lt_irrefl, List.mem_cons] at h
          rcases h with h | h
          · exact .inr (by rw [h, h2])
          · exact .inl (List.mem_cons_of_mem _ h)
      · simp only [Table.store, h1, h2, if_false, List.mem_cons] at h
        rcases h with h | h
        · exact .inl (by simp [h])
        · exact (ih h).imp (List.mem_cons_of_mem _) id

/-! ### TabRead and TabWrite (R21) -/

omit [DecidableEq α] in
theorem tabRead_of_lt {sh : TableShape α} {t : Table α} {i : Nat} (h : i < sh.size) :
    tabRead sh t i = some (t.lookup sh.init i) := by simp [tabRead, h]

omit [DecidableEq α] in
/-- Everything TabRead can answer. -/
theorem tabRead_eq_some {sh : TableShape α} {t : Table α} {i : Nat} {v : α} :
    tabRead sh t i = some v ↔ i < sh.size ∧ t.lookup sh.init i = v := by
  by_cases h : i < sh.size <;> simp [tabRead, h]

theorem tabWrite_of_lt {sh : TableShape α} {t : Table α} {i : Nat} {v : α} (h : i < sh.size) :
    tabWrite sh t i v = some (t.store sh.init i v) := by simp [tabWrite, h]

/-- Everything TabWrite can answer. -/
theorem tabWrite_eq_some {sh : TableShape α} {t t' : Table α} {i : Nat} {v : α} :
    tabWrite sh t i v = some t' ↔ i < sh.size ∧ t' = t.store sh.init i v := by
  by_cases h : i < sh.size <;> simp [tabWrite, h, eq_comm]

/-- A read after a write of the same entry of a canonical table. -/
theorem tabRead_store_same {sh : TableShape α} {t : Table α} {i : Nat} {v : α} (ht : t.wf sh = true)
    (hi : i < sh.size) : tabRead sh (t.store sh.init i v) i = some v := by
  rw [tabRead_of_lt hi, Table.lookup_store_same ht]

/-- A read of another entry after a write. -/
theorem tabRead_store_ne {sh : TableShape α} {t : Table α} {i j : Nat} {v : α} (hj : j ≠ i) :
    tabRead sh (t.store sh.init i v) j = tabRead sh t j := by
  simp [tabRead, Table.lookup_store_ne t hj]

/-- A write inside a table keeps its canonical form. -/
theorem Table.wf_store {sh : TableShape α} {t : Table α} {i : Nat} {v : α} (ht : t.wf sh = true)
    (hi : i < sh.size) : (t.store sh.init i v).wf sh = true :=
  Table.wfFrom_store ht (Nat.zero_le i) hi

/-- The table that INIT leaves is canonical and reads as its initial value. -/
@[simp] theorem Table.wf_nil (sh : TableShape α) : Table.wf sh [] = true := rfl

end Sys2Proof.Machine
end

