-- ==== Sys2Proof/Laws/Commands.lean ====
section
/-! SUPPORT. One lemma for each shared operation of the commands that says everything it does, so that later proofs cite
it and do not unfold it: the gate, INIT, the four modes, and the issue of a word. -/

namespace Sys2Proof.Machine

/-! ### The gate and the ranges -/

theorem unlessFaulted_faulted {s : State} (h : s.status = .faulted) (k : Result) :
    unlessFaulted s k = .next s.ignore := if_pos h

theorem unlessFaulted_unfaulted {s : State} (h : s.status ≠ .faulted) (k : Result) : unlessFaulted s k = k :=
  if_neg h

@[simp] theorem inRange_some {β : Type} (b : β) (k : β → Result) : inRange (some b) k = k b := rfl

/-- An access that goes on had an entry. -/
theorem inRange_eq_next {β : Type} {o : Option β} {k : β → Result} {s' : State} (h : inRange o k = .next s') :
    ∃ b, o = some b ∧ k b = .next s' := by
  cases o with
  | none => cases h
  | some b => exact ⟨b, rfl, h⟩

/-! ### Gshare -/

theorem gsharePredict_eq (pc : Pc) (g : Gshare) (s : State) :
    gsharePredict pc g s = .next (s.accept (ctrRead (g.pht.lookup 1 (gshareIdx s.cfg pc g.ghr)))) := by
  simp [gsharePredict, tabRead_of_lt (sh := phtShape s.cfg) (gshareIdx_lt s.cfg pc g.ghr)]

theorem gshareTrain_eq (pc : Pc) (o : Bool) (g : Gshare) (s : State) :
    gshareTrain pc o g s = .next (State.accept false { s with m := .gshare {
      ghr := histShift g.ghr o s.cfg.wG,
      pht := g.pht.store 1 (gshareIdx s.cfg pc g.ghr)
        (ctrBump (g.pht.lookup 1 (gshareIdx s.cfg pc g.ghr)) o) } }) := by
  have h := gshareIdx_lt s.cfg pc g.ghr
  simp [gshareTrain, tabRead_of_lt (sh := phtShape s.cfg) h, tabWrite_of_lt (sh := phtShape s.cfg) h]

/-! ### Tournament -/

/-- The reads of R151 and R152, which are always in range (R62). -/
def tournLets (cfg : Config) (pc : Pc) (t : Tournament) : TournRead :=
  let hist := t.lht.lookup 0 (tournPcidx cfg pc)
  { g := tournGidx cfg t.ghr, ch := t.chooser.lookup 2 (tournGidx cfg t.ghr), p := tournPcidx cfg pc, hist := hist,
    l := tournLidx cfg hist, lc := t.lpht.lookup 1 (tournLidx cfg hist), gc := t.gpht.lookup 1 (tournGidx cfg t.ghr) }

theorem tournRead_eq (cfg : Config) (pc : Pc) (t : Tournament) : tournRead cfg pc t = some (tournLets cfg pc t) := by
  simp only [tournRead, tabRead_of_lt (sh := chooserShape cfg) (tournGidx_lt cfg t.ghr),
    tabRead_of_lt (sh := lhtShape cfg) (tournPcidx_lt cfg pc)]
  simp only [tabRead_of_lt (sh := lphtShape cfg) (tournLidx_lt cfg _),
    tabRead_of_lt (sh := gphtShape cfg) (tournGidx_lt cfg t.ghr)]
  rfl

/-- The state of the tournament after R152's writes. -/
def tournAfter (cfg : Config) (pc : Pc) (o : Bool) (t : Tournament) : Tournament :=
  let r := tournLets cfg pc t
  { ghr := histShift t.ghr o cfg.wG,
    lht := t.lht.store 0 r.p (histShift r.hist o cfg.wL),
    lpht := t.lpht.store 1 r.l (ctrBump r.lc o),
    gpht := t.gpht.store 1 r.g (ctrBump r.gc o),
    chooser := t.chooser.store 2 r.g (chooserNext r.ch (ctrRead r.lc) (ctrRead r.gc) o) }

theorem tournWrite_eq (cfg : Config) (pc : Pc) (o : Bool) (t : Tournament) :
    tournWrite cfg o t (tournLets cfg pc t) = some (tournAfter cfg pc o t) := by
  simp only [tournWrite, tournLets, tabWrite_of_lt (sh := chooserShape cfg) (tournGidx_lt cfg t.ghr),
    tabWrite_of_lt (sh := gphtShape cfg) (tournGidx_lt cfg t.ghr),
    tabWrite_of_lt (sh := lphtShape cfg) (tournLidx_lt cfg _),
    tabWrite_of_lt (sh := lhtShape cfg) (tournPcidx_lt cfg pc)]
  rfl

theorem tournPredict_eq (pc : Pc) (t : Tournament) (s : State) :
    tournPredict pc t s = .next (s.accept
      (chooserSelect (tournLets s.cfg pc t).ch (ctrRead (tournLets s.cfg pc t).lc)
        (ctrRead (tournLets s.cfg pc t).gc))) := by
  simp [tournPredict, tournRead_eq]

theorem tournTrain_eq (pc : Pc) (o : Bool) (t : Tournament) (s : State) :
    tournTrain pc o t s = .next (State.accept false { s with m := .tournament (tournAfter s.cfg pc o t) }) := by
  simp [tournTrain, tournRead_eq, tournWrite_eq]

/-! ### Perceptron -/

/-- Everything a row read can answer. -/
theorem readRow_eq_some {cfg : Config} {p : Perceptron} {r : Nat} {row : WeightRow} :
    readRow cfg p r = some row ↔
      r < cfg.pN ∧ p.w.lookup (List.replicate (cfg.pH + 1) 0) r = row ∧ row.length = p.hist.length + 1 := by
  by_cases h : r < cfg.pN
  · simp only [readRow, tabRead_of_lt (sh := wShape cfg) h, wShape_init]
    split
    · rename_i hl
      simp only [Option.some.injEq]
      exact ⟨fun he => ⟨h, he, he ▸ hl⟩, fun he => he.2.1⟩
    · rename_i hl
      simp only [reduceCtorEq, false_iff]
      rintro ⟨-, rfl, h3⟩
      exact hl h3
  · simp [readRow, tabRead, h]

/-- The scratch that a PREDICT of `pc` leaves when the row's sum is `y` (R181). -/
def Perceptron.scratch (p : Perceptron) (pc : Pc) (y : Int) : Perceptron :=
  { p with lastPred := percPred y, needsTrain := percNeeds p.theta y, scrValid := true, scrPc := pc }

theorem percPredict_eq {pc : Pc} {p : Perceptron} {s : State} {row : WeightRow}
    (h : readRow s.cfg p (percIdx s.cfg pc) = some row) :
    percPredict pc p s = .next (State.accept (percPred (percOut row p.hist))
      { s with m := .perceptron (p.scratch pc (percOut row p.hist)) }) := by
  simp only [percPredict, h, inRange_some]; rfl

theorem percTrain_unpaired {pc : Pc} {o : Bool} {p : Perceptron} {s : State} (h : percPaired pc p = false) :
    percTrain pc o p s = .next (s.raise .orderViolation (encode (.train pc o))) := by
  simp [percTrain, h]

theorem percTrain_keeping {pc : Pc} {o : Bool} {p : Perceptron} {s : State} (h : percPaired pc p = true)
    (ht : percTrains o p = false) :
    percTrain pc o p s = .next (State.accept false
      { s with m := .perceptron { p with hist := windowShift p.hist o, scrValid := false } }) := by
  simp [percTrain, h, ht]

theorem percTrain_updating {pc : Pc} {o : Bool} {p : Perceptron} {s : State} {row : WeightRow}
    (h : percPaired pc p = true) (ht : percTrains o p = true)
    (hr : readRow s.cfg p (percIdx s.cfg pc) = some row) :
    percTrain pc o p s = .next (State.accept false
      { s with m := .perceptron { p with
          w := p.w.store (List.replicate (s.cfg.pH + 1) 0) (percIdx s.cfg pc) (percUpdate s.cfg row p.hist o),
          hist := windowShift p.hist o, scrValid := false } }) := by
  have hw := tabWrite_of_lt (sh := wShape s.cfg) (t := p.w) (v := percUpdate s.cfg row p.hist o)
    (readRow_eq_some.mp hr).1
  simp [percTrain, h, ht, hr, hw]

@[simp] theorem percLanes_length (cfg : Config) (o : Bool) (ws : WeightRow) (hs : List Bool) :
    (percLanes cfg o ws hs).length = ws.length := by
  induction ws generalizing hs with
  | nil => simp [percLanes]
  | cons wt ws ih => cases hs <;> simp [percLanes, ih]

@[simp] theorem percUpdate_length (cfg : Config) (row : WeightRow) (hs : List Bool) (o : Bool) :
    (percUpdate cfg row hs o).length = row.length := by
  cases row <;> simp [percUpdate]

/-! ### The facade and the issue of a word -/

theorem exec_initInstr (m : Mode) (s : State) : exec (initInstr m) s = initAs m (encode (initInstr m)) s := by
  cases m <;> rfl

/-- A FAULTED block ignores every command (R241). -/
theorem exec_faulted {s : State} (h : s.status = .faulted) (i : Instr) : exec i s = .next s.ignore := by
  cases i <;> exact unlessFaulted_faulted h _

/-- The mode multiplexer of PREDICT while READY (R111, R212), one line for each kind of `M`. -/
theorem exec_predict_ready {s : State} (h : s.status = .ready) (pc : Pc) :
    (s.m = .absent → exec (.predict pc) s = .refused .noValue) ∧
    (s.m = .static → exec (.predict pc) s = staticPredict pc s) ∧
    (∀ g, s.m = .gshare g → exec (.predict pc) s = gsharePredict pc g s) ∧
    (∀ t, s.m = .tournament t → exec (.predict pc) s = tournPredict pc t s) ∧
    (∀ p, s.m = .perceptron p → exec (.predict pc) s = percPredict pc p s) := by
  refine ⟨fun hm => ?_, fun hm => ?_, fun g hm => ?_, fun t hm => ?_, fun p hm => ?_⟩ <;>
    simp [exec, execPredict, unlessFaulted, h, hm]

/-- The mode multiplexer of TRAIN while READY (R111, R213), one line for each kind of `M`. -/
theorem exec_train_ready {s : State} (h : s.status = .ready) (pc : Pc) (o : Bool) :
    (s.m = .absent → exec (.train pc o) s = .refused .noValue) ∧
    (s.m = .static → exec (.train pc o) s = staticTrain pc o s) ∧
    (∀ g, s.m = .gshare g → exec (.train pc o) s = gshareTrain pc o g s) ∧
    (∀ t, s.m = .tournament t → exec (.train pc o) s = tournTrain pc o t s) ∧
    (∀ p, s.m = .perceptron p → exec (.train pc o) s = percTrain pc o p s) := by
  refine ⟨fun hm => ?_, fun hm => ?_, fun g hm => ?_, fun t hm => ?_, fun p hm => ?_⟩ <;>
    simp [exec, execTrain, unlessFaulted, h, hm]

/-- PREDICT and TRAIN before INIT (R233). -/
theorem exec_predict_uninit {s : State} (h : s.status = .uninit) (pc : Pc) :
    exec (.predict pc) s = .next (s.raise .notInitialized (encode (.predict pc))) := by
  simp [exec, execPredict, unlessFaulted, h]

theorem exec_train_uninit {s : State} (h : s.status = .uninit) (pc : Pc) (o : Bool) :
    exec (.train pc o) s = .next (s.raise .notInitialized (encode (.train pc o))) := by
  simp [exec, execTrain, unlessFaulted, h]

theorem initAs_ready {m : Mode} {c : Cmd} {s : State} (h : s.status = .ready) :
    initAs m c s = .next (s.raise .reinit c) := by
  simp [initAs, unlessFaulted, h]

theorem initAs_accepted {m : Mode} {c : Cmd} {s : State} (h : s.status = .uninit) (hc : cfgOk s.cfg m = true) :
    initAs m c s = .next (State.accept false { s with m := initPredictor s.cfg m, status := .ready }) := by
  simp [initAs, unlessFaulted, h, hc]

theorem initAs_rejected {m : Mode} {c : Cmd} {s : State} (h : s.status = .uninit) (hc : cfgOk s.cfg m = false) :
    initAs m c s = .next (s.raise .configInvalid c) := by
  simp [initAs, unlessFaulted, h, hc]

theorem issue_faulted {s : State} (h : s.status = .faulted) (c : Cmd) : issue c s = .next s.ignore :=
  unlessFaulted_faulted h _

/-- A word that decodes runs as its command, whatever the STATUS (R210). -/
theorem issue_decoded {c : Cmd} {i : Instr} (hd : decode c = .ok i) (s : State) : issue c s = exec i s := by
  by_cases h : s.status = .faulted
  · rw [issue_faulted h, exec_faulted h]
  · simp [issue, unlessFaulted, h, hd]

theorem issue_reserved {c : Cmd} {e : DecodeError} {s : State} (hd : decode c = .error e) (h : s.status ≠ .faulted) :
    issue c s = .next (s.raise .reservedEncoding c) := by
  simp [issue, unlessFaulted, h, hd]

end Sys2Proof.Machine
end

