-- ==== Sys2Proof/Laws/Decode.lean ====
section
/-! SUPPORT. The fields of a packed command word, and a word from its five fields (R80). -/

namespace Sys2Proof

/-- The bits of a packed word, field by field (R80). -/
theorem packWord_getLsbD (op md : BitVec 2) (o : Bool) (pc : Pc) (i : Nat) :
    (packWord op md o pc).getLsbD i =
      if i < 32 then pc.getLsbD i else if i < 35 then false else if i < 36 then o
      else if i < 38 then md.getLsbD (i - 36) else op.getLsbD (i - 38) := by
  simp only [packWord, BitVec.getLsbD_append, BitVec.getLsbD_ofBool, BitVec.getLsbD_zero]
  split_ifs with h1 h2 h3 h4 h5 h6 <;> first | rfl | omega | skip
  rw [show i - 32 - 3 = 0 by omega]; simp

@[simp] theorem Cmd.op_packWord (op md : BitVec 2) (o : Bool) (pc : Pc) : Cmd.op (packWord op md o pc) = op := by
  ext i hi
  simp only [Cmd.op, BitVec.getElem_extractLsb', packWord_getLsbD]
  rw [if_neg (by omega), if_neg (by omega), if_neg (by omega), if_neg (by omega), Nat.add_sub_cancel_left]
  exact BitVec.getLsbD_eq_getElem hi

@[simp] theorem Cmd.mode_packWord (op md : BitVec 2) (o : Bool) (pc : Pc) : Cmd.mode (packWord op md o pc) = md := by
  ext i hi
  simp only [Cmd.mode, BitVec.getElem_extractLsb', packWord_getLsbD]
  rw [if_neg (by omega), if_neg (by omega), if_neg (by omega), if_pos (by omega), Nat.add_sub_cancel_left]
  exact BitVec.getLsbD_eq_getElem hi

@[simp] theorem Cmd.outcome_packWord (op md : BitVec 2) (o : Bool) (pc : Pc) :
    Cmd.outcome (packWord op md o pc) = o := packWord_getLsbD op md o pc 35

@[simp] theorem Cmd.rsv_packWord (op md : BitVec 2) (o : Bool) (pc : Pc) : Cmd.rsv (packWord op md o pc) = 0 := by
  ext i hi
  simp only [Cmd.rsv, BitVec.getElem_extractLsb', packWord_getLsbD]
  rw [if_neg (by omega), if_pos (by omega)]
  simp

@[simp] theorem Cmd.pc_packWord (op md : BitVec 2) (o : Bool) (pc : Pc) : Cmd.pc (packWord op md o pc) = pc := by
  ext i hi
  simp only [Cmd.pc, BitVec.getElem_extractLsb', packWord_getLsbD]
  rw [if_pos (by omega), Nat.zero_add]
  exact BitVec.getLsbD_eq_getElem hi

/-- A word whose reserved bits are zero is the packing of its other fields. -/
theorem Cmd.eq_packWord {c : Cmd} (h : c.rsv = 0) : c = packWord c.op c.mode c.outcome c.pc := by
  refine BitVec.eq_of_getLsbD_eq fun i hi => ?_
  have hr : ∀ j, j < 3 → c.getLsbD (32 + j) = false := fun j hj => by
    simpa [Cmd.rsv, BitVec.getLsbD_extractLsb', hj] using congrArg (fun v : BitVec 3 => v.getLsbD j) h
  rw [packWord_getLsbD]
  split_ifs with h1 h2 h3 h4
  · simp [Cmd.pc, h1]
  · simpa [show 32 + (i - 32) = i by omega] using hr (i - 32) (by omega)
  · rw [show i = 35 by omega]; rfl
  · simp [Cmd.mode, show 36 + (i - 36) = i by omega, show i - 36 < 2 by omega]
  · simp [Cmd.op, show 38 + (i - 38) = i by omega, show i - 38 < 2 by omega]

/-- The packings are different where their fields are. -/
theorem packWord_inj {op md op' md' : BitVec 2} {o o' : Bool} {pc pc' : Pc} :
    packWord op md o pc = packWord op' md' o' pc' ↔ op = op' ∧ md = md' ∧ o = o' ∧ pc = pc' := by
  refine ⟨fun h => ⟨?_, ?_, ?_, ?_⟩, fun ⟨h1, h2, h3, h4⟩ => by rw [h1, h2, h3, h4]⟩
  · simpa using congrArg Cmd.op h
  · simpa using congrArg Cmd.mode h
  · simpa using congrArg Cmd.outcome h
  · simpa using congrArg Cmd.pc h

end Sys2Proof
end

