-- ==== Sys2Proof/Laws/Inversion.lean ====
section
/-! SUPPORT. Inversion: what a command that answers a next state has done, said once, so that a later proof about all
commands is a short case analysis. -/

namespace Sys2Proof.Machine

theorem next_inj {s t : State} (h : (Host.Outcome.next s : Result) = .next t) : s = t := by cases h; rfl

theorem State.with_m {s : State} {m : Predictor} (h : s.m = m) : { s with m := m } = s := by subst h; rfl

theorem status_cases (s : State) (h : s.status ≠ .faulted) : s.status = .uninit ∨ s.status = .ready := by
  cases hs : s.status <;> simp_all

/-- The three kinds of command (R81). -/
theorem instr_cases (i : Instr) :
    (∃ m, i = initInstr m) ∨ (∃ pc, i = .predict pc) ∨ (∃ pc o, i = .train pc o) := by
  cases i
  · exact .inl ⟨.static, rfl⟩
  · exact .inl ⟨.gshare, rfl⟩
  · exact .inl ⟨.tournament, rfl⟩
  · exact .inl ⟨.custom, rfl⟩
  · exact .inr (.inl ⟨_, rfl⟩)
  · exact .inr (.inr ⟨_, _, rfl⟩)

@[simp] theorem initMode_initInstr (m : Mode) : initMode (initInstr m) = some m := by cases m <;> rfl

/-- An INIT that is not ignored ends in one of three ways (R211). -/
theorem exec_init_cases (m : Mode) (s : State) (h : s.status ≠ .faulted) :
    (s.status = .ready ∧ exec (initInstr m) s = .next (s.raise .reinit (encode (initInstr m)))) ∨
    (s.status = .uninit ∧ cfgOk s.cfg m = true ∧
      exec (initInstr m) s = .next (State.accept false { s with m := initPredictor s.cfg m, status := .ready })) ∨
    (s.status = .uninit ∧ cfgOk s.cfg m = false ∧
      exec (initInstr m) s = .next (s.raise .configInvalid (encode (initInstr m)))) := by
  rcases status_cases s h with hs | hs
  · cases hc : cfgOk s.cfg m
    · exact .inr (.inr ⟨hs, rfl, by rw [exec_initInstr, initAs_rejected hs hc]⟩)
    · exact .inr (.inl ⟨hs, rfl, by rw [exec_initInstr, initAs_accepted hs hc]⟩)
  · exact .inl ⟨hs, by rw [exec_initInstr, initAs_ready hs]⟩

/-- `Moves cfg i m b m'`: an accepted PREDICT or TRAIN `i` takes `M` from `m` to `m'` and answers PRED = `b`. -/
inductive Moves (cfg : Config) : Instr → Predictor → Bool → Predictor → Prop
  | staticPredict (pc : Pc) : Moves cfg (.predict pc) .static true .static
  | staticTrain (pc : Pc) (o : Bool) : Moves cfg (.train pc o) .static false .static
  | gsharePredict (pc : Pc) (g : Gshare) :
      Moves cfg (.predict pc) (.gshare g) (ctrRead (g.pht.lookup 1 (gshareIdx cfg pc g.ghr))) (.gshare g)
  | gshareTrain (pc : Pc) (o : Bool) (g : Gshare) :
      Moves cfg (.train pc o) (.gshare g) false (.gshare {
        ghr := histShift g.ghr o cfg.wG,
        pht := g.pht.store 1 (gshareIdx cfg pc g.ghr)
          (ctrBump (g.pht.lookup 1 (gshareIdx cfg pc g.ghr)) o) })
  | tournPredict (pc : Pc) (t : Tournament) :
      Moves cfg (.predict pc) (.tournament t)
        (chooserSelect (tournLets cfg pc t).ch (ctrRead (tournLets cfg pc t).lc) (ctrRead (tournLets cfg pc t).gc))
        (.tournament t)
  | tournTrain (pc : Pc) (o : Bool) (t : Tournament) :
      Moves cfg (.train pc o) (.tournament t) false (.tournament (tournAfter cfg pc o t))
  | percPredict (pc : Pc) (p : Perceptron) (row : WeightRow) : readRow cfg p (percIdx cfg pc) = some row →
      Moves cfg (.predict pc) (.perceptron p) (percPred (percOut row p.hist))
        (.perceptron (p.scratch pc (percOut row p.hist)))
  | percKeep (pc : Pc) (o : Bool) (p : Perceptron) : percPaired pc p = true → percTrains o p = false →
      Moves cfg (.train pc o) (.perceptron p) false
        (.perceptron { p with hist := windowShift p.hist o, scrValid := false })
  | percAdjust (pc : Pc) (o : Bool) (p : Perceptron) (row : WeightRow) : percPaired pc p = true →
      percTrains o p = true → readRow cfg p (percIdx cfg pc) = some row →
      Moves cfg (.train pc o) (.perceptron p) false
        (.perceptron { p with
          w := p.w.store (List.replicate (cfg.pH + 1) 0) (percIdx cfg pc) (percUpdate cfg row p.hist o),
          hist := windowShift p.hist o, scrValid := false })

/-- `Raises s i f`: the command `i` raises the fault `f` in state `s` (R238, a word that decodes). -/
inductive Raises (s : State) : Instr → FaultCause → Prop
  | reinit (m : Mode) : s.status = .ready → Raises s (initInstr m) .reinit
  | configInvalid (m : Mode) : s.status = .uninit → cfgOk s.cfg m = false → Raises s (initInstr m) .configInvalid
  | notInitialized (i : Instr) : s.status = .uninit → initMode i = none → Raises s i .notInitialized
  | orderViolation (pc : Pc) (o : Bool) (p : Perceptron) : s.status = .ready → s.m = .perceptron p →
      percPaired pc p = false → Raises s (.train pc o) .orderViolation

/-- Everything a command that answers a next state can have done: ignored, faulted, an INIT accepted, or a PREDICT or
TRAIN accepted (R210). -/
theorem exec_cases {i : Instr} {s s' : State} (h : exec i s = .next s') :
    (s.status = .faulted ∧ s' = s.ignore) ∨
    (s.status ≠ .faulted ∧ ∃ f, s' = s.raise f (encode i) ∧ Raises s i f) ∨
    (s.status = .uninit ∧ ∃ m, i = initInstr m ∧ cfgOk s.cfg m = true ∧
      s' = State.accept false { s with m := initPredictor s.cfg m, status := .ready }) ∨
    (s.status = .ready ∧ ∃ b m', s' = State.accept b { s with m := m' } ∧ Moves s.cfg i s.m b m') := by
  by_cases hf : s.status = .faulted
  · left; rw [exec_faulted hf] at h; exact ⟨hf, (next_inj h).symm⟩
  right
  rcases instr_cases i with ⟨m, rfl⟩ | ⟨pc, rfl⟩ | ⟨pc, o, rfl⟩
  · rcases exec_init_cases m s hf with ⟨h1, h2⟩ | ⟨h1, h2, h3⟩ | ⟨h1, h2, h3⟩
    · rw [h2] at h; left; exact ⟨hf, _, (next_inj h).symm, .reinit m h1⟩
    · rw [h3] at h; right; left; exact ⟨h1, m, rfl, h2, (next_inj h).symm⟩
    · rw [h3] at h; left; exact ⟨hf, _, (next_inj h).symm, .configInvalid m h1 h2⟩
  · rcases status_cases s hf with hs | hs
    · rw [exec_predict_uninit hs] at h; left; exact ⟨hf, _, (next_inj h).symm, .notInitialized _ hs rfl⟩
    · right; right; refine ⟨hs, ?_⟩
      obtain ⟨h0, h1, h2, h3, h4⟩ := exec_predict_ready hs pc
      cases hm : s.m with
      | absent => rw [h0 hm] at h; cases h
      | static =>
        rw [h1 hm] at h
        exact ⟨true, _, (next_inj h).symm.trans (by rw [State.with_m hm]), .staticPredict pc⟩
      | gshare g =>
        rw [h2 g hm, gsharePredict_eq] at h
        exact ⟨_, _, (next_inj h).symm.trans (by rw [State.with_m hm]), .gsharePredict pc g⟩
      | tournament t =>
        rw [h3 t hm, tournPredict_eq] at h
        exact ⟨_, _, (next_inj h).symm.trans (by rw [State.with_m hm]), .tournPredict pc t⟩
      | perceptron p =>
        rw [h4 p hm] at h
        have h' := h
        obtain ⟨row, hr, -⟩ := inRange_eq_next h'
        rw [percPredict_eq hr] at h
        exact ⟨_, _, (next_inj h).symm, .percPredict pc p row hr⟩
  · rcases status_cases s hf with hs | hs
    · rw [exec_train_uninit hs] at h; left; exact ⟨hf, _, (next_inj h).symm, .notInitialized _ hs rfl⟩
    · obtain ⟨h0, h1, h2, h3, h4⟩ := exec_train_ready hs pc o
      cases hm : s.m with
      | absent => rw [h0 hm] at h; cases h
      | static =>
        rw [h1 hm] at h
        right; right
        exact ⟨hs, false, _, (next_inj h).symm.trans (by rw [State.with_m hm]), .staticTrain pc o⟩
      | gshare g =>
        rw [h2 g hm, gshareTrain_eq] at h
        right; right
        exact ⟨hs, _, _, (next_inj h).symm, .gshareTrain pc o g⟩
      | tournament t =>
        rw [h3 t hm, tournTrain_eq] at h
        right; right
        exact ⟨hs, _, _, (next_inj h).symm, .tournTrain pc o t⟩
      | perceptron p =>
        rw [h4 p hm] at h
        cases hp : percPaired pc p with
        | false =>
          rw [percTrain_unpaired hp] at h
          left; exact ⟨hf, _, (next_inj h).symm, .orderViolation pc o p hs hm hp⟩
        | true =>
          right; right; refine ⟨hs, ?_⟩
          cases ht : percTrains o p with
          | false => rw [percTrain_keeping hp ht] at h; exact ⟨_, _, (next_inj h).symm, .percKeep pc o p hp ht⟩
          | true =>
            have h' := h
            simp only [percTrain, hp, ht, if_true] at h'
            obtain ⟨row, hr, -⟩ := inRange_eq_next h'
            rw [percTrain_updating hp ht hr] at h
            exact ⟨_, _, (next_inj h).symm, .percAdjust pc o p row hp ht hr⟩

end Sys2Proof.Machine
end

