-- ==== Sys2Proof/Laws/Invariant.lean ====
section
/-! SUPPORT. The parts of the invariant: what each one says, which values have it, and that an accepted command keeps
the part about `M`. -/

namespace Sys2Proof.Machine

theorem State.inv_iff (s : State) :
    s.inv = true ↔ lifecycleOk s = true ∧ responseOk s = true ∧ predictorOk s.cfg s.m = true := by
  simp [State.inv, and_assoc]

/-! ### What the invariant says of each mode -/

theorem predictorOk_gshare {cfg : Config} {g : Gshare} : predictorOk cfg (.gshare g) = true ↔
    cfgOk cfg .gshare = true ∧ g.ghr < 2 ^ cfg.wG ∧ g.pht.wf (phtShape cfg) = true := by
  simp [predictorOk, and_assoc]

theorem predictorOk_tournament {cfg : Config} {t : Tournament} : predictorOk cfg (.tournament t) = true ↔
    cfgOk cfg .tournament = true ∧ t.ghr < 2 ^ cfg.wG ∧ t.lht.wf (lhtShape cfg) = true ∧
    (∀ e ∈ t.lht, e.2 < 2 ^ cfg.wL) ∧ t.lpht.wf (lphtShape cfg) = true ∧ t.gpht.wf (gphtShape cfg) = true ∧
    t.chooser.wf (chooserShape cfg) = true := by
  simp only [predictorOk, Bool.and_eq_true, decide_eq_true_eq, List.all_eq_true, and_assoc]

theorem predictorOk_perceptron {cfg : Config} {p : Perceptron} : predictorOk cfg (.perceptron p) = true ↔
    cfgOk cfg .custom = true ∧ p.hist.length = cfg.pH ∧ p.w.wf (wShape cfg) = true ∧
    (∀ e ∈ p.w, e.2.length = cfg.pH + 1 ∧ rowBounded cfg e.2 = true) ∧ p.theta = pTheta cfg ∧
    scratchOk cfg p = true := by
  simp only [predictorOk, Bool.and_eq_true, List.all_eq_true, and_assoc, beq_iff_eq]

/-- The state that a successful INIT leaves has the invariant (R130, R150, R180). -/
theorem initPredictor_ok (cfg : Config) (m : Mode) (h : cfgOk cfg m = true) :
    predictorOk cfg (initPredictor cfg m) = true := by
  cases m with
  | static => rfl
  | gshare => simp [initPredictor, gshareInit, predictorOk, h]
  | tournament => simp [initPredictor, tournInit, predictorOk, h]
  | custom => simp [initPredictor, percInit, predictorOk, h, scratchOk]

/-! ### Weight rows -/

theorem weight_bounds (cfg : Config) : wMin cfg ≤ 0 ∧ 0 ≤ wMax cfg := by
  have : (0 : Int) < 2 ^ (cfg.pWb - 1) := by positivity
  simp only [wMin, wMax]
  omega

/-- A saturated value lies in [WMIN, WMAX] (R23). -/
theorem satw_bounds (cfg : Config) (v : Int) : wMin cfg ≤ satw cfg v ∧ satw cfg v ≤ wMax cfg := by
  have := weight_bounds cfg
  simp only [satw, sat]
  omega

theorem rowBounded_iff {cfg : Config} {row : WeightRow} :
    rowBounded cfg row = true ↔ ∀ x ∈ row, wMin cfg ≤ x ∧ x ≤ wMax cfg := by
  simp [rowBounded]

theorem rowBounded_cons {cfg : Config} {x : Int} {row : WeightRow} :
    rowBounded cfg (x :: row) = true ↔ (wMin cfg ≤ x ∧ x ≤ wMax cfg) ∧ rowBounded cfg row = true := by
  simp [rowBounded]

theorem percLanes_bounded {cfg : Config} (o : Bool) {ws : WeightRow} (hs : List Bool)
    (h : rowBounded cfg ws = true) : rowBounded cfg (percLanes cfg o ws hs) = true := by
  induction ws generalizing hs with
  | nil => exact h
  | cons wt ws ih =>
    cases hs with
    | nil => exact h
    | cons b hs => exact rowBounded_cons.mpr ⟨satw_bounds _ _, ih hs (rowBounded_cons.mp h).2⟩

/-- An updated row is bounded (R115, R184). -/
theorem percUpdate_bounded {cfg : Config} {row : WeightRow} (hs : List Bool) (o : Bool)
    (h : rowBounded cfg row = true) : rowBounded cfg (percUpdate cfg row hs o) = true := by
  cases row with
  | nil => exact h
  | cons wt ws => exact rowBounded_cons.mpr ⟨satw_bounds _ _, percLanes_bounded o hs (rowBounded_cons.mp h).2⟩

theorem rowBounded_zeros (cfg : Config) (n : Nat) : rowBounded cfg (List.replicate n 0) = true :=
  rowBounded_iff.mpr fun _ hx => List.eq_of_mem_replicate hx ▸ weight_bounds cfg

/-- Every row of W, listed or not, has P_H + 1 bounded weights. -/
theorem lookup_row {cfg : Config} {p : Perceptron}
    (h : ∀ e ∈ p.w, e.2.length = cfg.pH + 1 ∧ rowBounded cfg e.2 = true) (r : Nat) :
    (p.w.lookup (List.replicate (cfg.pH + 1) 0) r).length = cfg.pH + 1 ∧
    rowBounded cfg (p.w.lookup (List.replicate (cfg.pH + 1) 0) r) = true :=
  Table.lookup_of_all (P := fun row : WeightRow => row.length = cfg.pH + 1 ∧ rowBounded cfg row = true)
    ⟨List.length_replicate, rowBounded_zeros cfg _⟩ h r

theorem cfgOk_custom {cfg : Config} (h : cfgOk cfg .custom = true) : 1 ≤ cfg.pH ∧ 1 ≤ cfg.pN ∧ 1 ≤ cfg.pWb := by
  simp only [cfgOk, widthOk, Bool.and_eq_true, decide_eq_true_eq] at h
  omega

/-- In a state with the invariant, the row of a pc can be read (R62, R110). -/
theorem readRow_ok {cfg : Config} {p : Perceptron} (h : predictorOk cfg (.perceptron p) = true) (pc : Pc) :
    readRow cfg p (percIdx cfg pc) = some (p.w.lookup (List.replicate (cfg.pH + 1) 0) (percIdx cfg pc)) := by
  obtain ⟨h1, h2, -, h4, -, -⟩ := predictorOk_perceptron.mp h
  exact readRow_eq_some.mpr ⟨percIdx_lt _ _ (cfgOk_custom h1).2.1, rfl, by rw [(lookup_row h4 _).1, h2]⟩

/-! ### Accepted commands -/

theorem Moves.mode_eq {cfg : Config} {i : Instr} {m m' : Predictor} {b : Bool} (h : Moves cfg i m b m') :
    m'.mode = m.mode ∧ m.mode.isSome = true := by cases h <;> exact ⟨rfl, rfl⟩

/-- An accepted PREDICT or TRAIN keeps the invariant of `M`. -/
theorem Moves.predictorOk {cfg : Config} {i : Instr} {m m' : Predictor} {b : Bool} (h : Moves cfg i m b m')
    (hm : predictorOk cfg m = true) : Machine.predictorOk cfg m' = true := by
  cases h with
  | staticPredict => exact hm
  | staticTrain => exact hm
  | gsharePredict => exact hm
  | tournPredict => exact hm
  | gshareTrain pc o g =>
    obtain ⟨h1, -, h3⟩ := predictorOk_gshare.mp hm
    exact predictorOk_gshare.mpr
      ⟨h1, histShift_lt _ _ _, Table.wf_store (sh := phtShape cfg) h3 (gshareIdx_lt _ _ _)⟩
  | tournTrain pc o t =>
    obtain ⟨h1, -, h3, h4, h5, h6, h7⟩ := predictorOk_tournament.mp hm
    refine predictorOk_tournament.mpr ⟨h1, histShift_lt _ _ _,
      Table.wf_store (sh := lhtShape cfg) h3 (tournPcidx_lt _ _), fun e he => ?_,
      Table.wf_store (sh := lphtShape cfg) h5 (tournLidx_lt _ _),
      Table.wf_store (sh := gphtShape cfg) h6 (tournGidx_lt _ _),
      Table.wf_store (sh := chooserShape cfg) h7 (tournGidx_lt _ _)⟩
    rcases Table.mem_store he with he | rfl
    · exact h4 e he
    · exact histShift_lt _ _ _
  | percPredict pc p row hr =>
    obtain ⟨h1, h2, h3, h4, h5, -⟩ := predictorOk_perceptron.mp hm
    refine predictorOk_perceptron.mpr ⟨h1, h2, h3, h4, h5, ?_⟩
    have hr' : readRow cfg (p.scratch pc (percOut row p.hist)) (percIdx cfg pc) = some row := hr
    simp only [scratchOk]
    rw [show (p.scratch pc (percOut row p.hist)).scrPc = pc from rfl, hr']
    simp [Perceptron.scratch]
  | percKeep pc o p hp ht =>
    obtain ⟨h1, h2, h3, h4, h5, -⟩ := predictorOk_perceptron.mp hm
    exact predictorOk_perceptron.mpr ⟨h1, by simpa using h2, h3, h4, h5, by simp [scratchOk]⟩
  | percAdjust pc o p row hp ht hr =>
    obtain ⟨h1, h2, h3, h4, h5, -⟩ := predictorOk_perceptron.mp hm
    obtain ⟨ha, hb, hc⟩ := readRow_eq_some.mp hr
    refine predictorOk_perceptron.mpr ⟨h1, by simpa using h2, Table.wf_store (sh := wShape cfg) h3 ha,
      fun e he => ?_, h5, by simp [scratchOk]⟩
    rcases Table.mem_store he with he | rfl
    · exact h4 e he
    · exact ⟨by simp [hc, h2], percUpdate_bounded _ _ (hb ▸ (lookup_row h4 _).2)⟩

end Sys2Proof.Machine
end

