-- ==== Sys2Proof/Laws/PerInstr.lean ====
section
/-! SUPPORT. The family TableRow: the word of every command carries the fixed bits of its row of spec/opcode_table.json,
"match" under "mask". -/

namespace Sys2Proof.Laws

/-- "mask" of the command's row of the opcode table. -/
def rowMask : Instr → Cmd
  | .initStatic => 0xFFFFFFFFFF
  | .initGshare => 0xFFFFFFFFFF
  | .initTournament => 0xFFFFFFFFFF
  | .initCustom => 0xFFFFFFFFFF
  | .predict _ => 0xFF00000000
  | .train _ _ => 0xF700000000

/-- "match" of the command's row of the opcode table. -/
def rowMatch : Instr → Cmd
  | .initStatic => 0xC000000000
  | .initGshare => 0xD000000000
  | .initTournament => 0xE000000000
  | .initCustom => 0xF000000000
  | .predict _ => 0x4000000000
  | .train _ _ => 0x8000000000

/-- The word of the command matches its row, and the command is well formed. -/
def TableRow.Statement (i : Instr) : Prop := i.wellFormed = true ∧ encode i &&& rowMask i = rowMatch i

theorem TableRow.initStatic : TableRow.Statement .initStatic := ⟨rfl, by decide⟩
theorem TableRow.initGshare : TableRow.Statement .initGshare := ⟨rfl, by decide⟩
theorem TableRow.initTournament : TableRow.Statement .initTournament := ⟨rfl, by decide⟩
theorem TableRow.initCustom : TableRow.Statement .initCustom := ⟨rfl, by decide⟩

/-- The mask of the PREDICT row keeps the bits above the pc. -/
theorem TableRow.predict (pc : Pc) : TableRow.Statement (.predict pc) := by
  refine ⟨rfl, BitVec.eq_of_getLsbD_eq fun i hi => ?_⟩
  simp only [encode, rowMask, rowMatch, BitVec.getLsbD_and, packWord_getLsbD]
  by_cases h : i < 32
  · have hm : (0xFF00000000#40).getLsbD i = false := by interval_cases i <;> rfl
    have hz : (0x4000000000#40).getLsbD i = false := by interval_cases i <;> rfl
    simp [hm, hz]
  · interval_cases i <;> first | omega | rfl

/-- The mask of the TRAIN row leaves the outcome bit and the pc open. -/
theorem TableRow.train (pc : Pc) (o : Bool) : TableRow.Statement (.train pc o) := by
  refine ⟨rfl, BitVec.eq_of_getLsbD_eq fun i hi => ?_⟩
  simp only [encode, rowMask, rowMatch, BitVec.getLsbD_and, packWord_getLsbD]
  by_cases h : i < 32
  · have hm : (0xF700000000#40).getLsbD i = false := by interval_cases i <;> rfl
    have hz : (0x8000000000#40).getLsbD i = false := by interval_cases i <;> rfl
    simp [hm, hz]
  · interval_cases i <;> first | omega | (cases o <;> rfl)

end Sys2Proof.Laws
end

