-- ==== Sys2Proof/Tests/Slice0.lean ====
section
/-! SUPPORT. Tests, each on one line form, one word, one step or one function, with the expected value taken from
spec/95_test_vectors.md or from the rule that is named; and for every statement with hypotheses a witness: a concrete
state and operands that meet them together. -/

namespace Sys2Proof.Tests

open Sys2Proof.Machine

/-! ### Helpers -/

/-- The state of a result that goes on. -/
def nextState : Result → Option State
  | .next s => some s
  | .fault _ => none
  | .refused _ => none

/-- A READY block whose `M` is `m`. -/
def readyWith (cfg : Config) (m : Predictor) : State :=
  { State.resetWith cfg with status := .ready, m := m, response := some 0 }

/-- A block that has faulted on `predict 0x4` before INIT (V-F3). -/
def faultedBlock : State := State.reset.raise .notInitialized 0x4000000004

/-- The gshare of program P1 with W_g = 4, right after INIT. -/
def freshGshare : State := readyWith (Config.withWidths 4 2 2 2) gshareInit

/-- The gshare of program P1 after its last step. -/
def trainedGshare : Gshare := { ghr := 15, pht := [(3, 2), (4, 2), (5, 2), (7, 2), (11, 3)] }

/-- The tournament of program P2 with all widths 2, before step 2. -/
def beforeStep2 : Tournament := { ghr := 1, lht := [(1, 1)], lpht := [(0, 2)], gpht := [(0, 2)], chooser := [] }

/-- The perceptron with P_H = 2 right after INIT. -/
def freshPerceptron : Perceptron :=
  { w := [], hist := [false, false], lastPred := false, needsTrain := false, scrValid := false, scrPc := 0, theta := 18 }

/-- The perceptron of program P3 after `predict 0x10` of step 1. -/
def predictedPerceptron : Perceptron :=
  { freshPerceptron with lastPred := true, needsTrain := true, scrValid := true, scrPc := 0x10 }

/-- A perceptron whose row 76 (pc 0x4) is that of V-PG2 in spec/95_test_vectors.md, with the scratch of its PREDICT. -/
def wideMargin : Perceptron :=
  { w := [(76, [10, 5, -3])], hist := [true, false], lastPred := true, needsTrain := false, scrValid := true,
    scrPc := 0x4, theta := 18 }

def freshTournament : State := readyWith Config.atReset tournInit
def freshCustom : State := readyWith Config.atReset (.perceptron freshPerceptron)
def predictedCustom : State := readyWith Config.atReset (.perceptron predictedPerceptron)
def staticBlock : State := readyWith Config.atReset .static

/-! ### Well-formedness -/

theorem test_predict_pc_too_large : AsmLine.wellFormed (.predict (2 ^ 32)) = false := by decide
theorem test_train_pc_too_large : AsmLine.wellFormed (.train (2 ^ 32) true) = false := by decide
theorem test_step_pc_too_large : AsmLine.wellFormed (.step (2 ^ 32) false) = false := by decide
theorem test_raw_word_too_large : AsmLine.wellFormed (.raw (2 ^ 40)) = false := by decide
theorem test_largest_numbers_fit :
    AsmLine.wellFormed (.predict 0xFFFFFFFF) = true ∧ AsmLine.wellFormed (.raw 0xFFFFFFFFFF) = true := by decide

/-! ### Decoding: section 2.11, the words bit by bit from R80 -/

/-- OP MODE OUTCOME RSV PC. -/
theorem test_decode_init_static : decode (0b11#2 ++ 0b00#2 ++ 0b0#1 ++ 0b000#3 ++ 0#32) = .ok .initStatic := rfl
theorem test_decode_init_gshare : decode (0b11#2 ++ 0b01#2 ++ 0b0#1 ++ 0b000#3 ++ 0#32) = .ok .initGshare := rfl
theorem test_decode_init_tournament :
    decode (0b11#2 ++ 0b10#2 ++ 0b0#1 ++ 0b000#3 ++ 0#32) = .ok .initTournament := rfl
theorem test_decode_init_custom : decode (0b11#2 ++ 0b11#2 ++ 0b0#1 ++ 0b000#3 ++ 0#32) = .ok .initCustom := rfl
theorem test_decode_predict : decode (0b01#2 ++ 0b00#2 ++ 0b0#1 ++ 0b000#3 ++ 0x80000005#32) = .ok (.predict 0x80000005) := rfl
theorem test_decode_train_taken : decode (0b10#2 ++ 0b00#2 ++ 0b1#1 ++ 0b000#3 ++ 4#32) = .ok (.train 4 true) := rfl
theorem test_decode_train_not_taken : decode (0b10#2 ++ 0b00#2 ++ 0b0#1 ++ 0b000#3 ++ 4#32) = .ok (.train 4 false) := rfl
theorem test_decode_op_zero : decode 0x0000000000 = .error .opReserved ∧ decode 0x3FFFFFFFFF = .error .opReserved :=
  ⟨rfl, rfl⟩
theorem test_decode_rsv : decode 0x4100000000 = .error .rsvNonzero ∧ decode 0x8100000004 = .error .rsvNonzero :=
  ⟨rfl, rfl⟩
theorem test_decode_predict_fields :
    decode 0x4800000004 = .error .predictWithOutcome ∧ decode 0x5000000004 = .error .predictWithMode := ⟨rfl, rfl⟩
theorem test_decode_train_mode : decode 0x9000000004 = .error .trainWithMode := rfl
theorem test_decode_init_fields :
    decode 0xC000000001 = .error .initWithPc ∧ decode 0xC800000000 = .error .initWithOutcome := ⟨rfl, rfl⟩
theorem test_encode_words :
    encode .initCustom = 0xF000000000 ∧ encode (.predict 0xFFFFFFFF) = 0x40FFFFFFFF ∧
    encode (.train 4 true) = 0x8800000004 ∧ encode (.train 4 false) = 0x8000000004 := by decide
theorem test_table_word : decodeTableWord 40 0x8800000010 = some (.train 0x10 true) := rfl
theorem test_table_word_reserved : decodeTableWord 40 0 = none := rfl
theorem test_fetch_word : nextState (step (State.reset.withFetchWord 40 0xD000000000)) = some freshGshare := rfl

/-! ### The textual command stream (R89, R90) -/

theorem test_text_step : assemble "step 0x10, T ; a branch" = some [0x4000000010, 0x8800000010] := by decide
theorem test_text_program :
    assemble "init perceptron\n\n predict 16\ntrain 0x10,N\n.cmd 0" =
      some [0xF000000000, 0x4000000010, 0x8000000010, 0] := by decide
theorem test_text_pc_too_large : assemble "predict 4294967296" = none := by decide

/-! ### Primitives: sections 2.1 to 2.9 -/

theorem test_hist_shift : histShift 0b0111 true 4 = 0b1111 ∧ histShift 0b1010 false 4 = 0b0100 := by decide
theorem test_window_shift : windowShift [true, false, true] false = [false, true, false] := by decide
theorem test_gshare_idx :
    gshareIdx (Config.withWidths 4 2 2 2) 0x4 0b0001 = 5 ∧ gshareIdx (Config.withWidths 1 2 2 2) 0x3 1 = 0 := by decide
theorem test_tourn_pcidx :
    tournPcidx (Config.withWidths 2 2 2 2) 0x1235 = 1 ∧ tournPcidx (Config.withWidths 2 2 4 2) 0x1235 = 5 := by decide
theorem test_perc_idx :
    percIdx Config.atReset 0x10 = 304 ∧ percIdx Config.atReset 0xFFFFFFFF = 345 ∧
    percIdx { Config.atReset with pHashWrap := false } 0xFFFFFFFF = 81 := by decide
theorem test_chooser :
    chooserSelect 1 false true = false ∧ chooserNext 2 true false true = 1 ∧ chooserNext 1 true false false = 2 := by
  decide
theorem test_theta : thetaOf 50 = 111 ∧ thetaOf 62 = 134 ∧ thetaOf 1 = 16 := by decide
theorem test_perc_out :
    percOut [10, 4, -3] [true, false] = 17 ∧ percOut [-128, -128, -128] [false, false] = 128 := by decide
theorem test_perc_update :
    percUpdate Config.atReset [127, -128, 127] [true, false] true = [127, -127, 126] ∧
    percUpdate Config.atReset [-128, 127, -128] [true, false] false = [-128, 126, -127] := by decide

/-! ### One step of each command -/

/-- V-F2c: static ignores the widths. -/
theorem test_init_static :
    (nextState (exec .initStatic (State.resetWith { Config.atReset with wG := 0 }))).map (·.m) = some .static := by decide
/-- V-F2. -/
theorem test_init_gshare_zero_width :
    (nextState (exec .initGshare (State.resetWith { Config.atReset with wG := 0 }))).map
      (fun s => (s.status, s.faultCode, s.faultCmd)) = some (.faulted, 2, 0xD000000000) := by decide
/-- V-F2b: W_l = 33. -/
theorem test_init_tournament_wide :
    (nextState (exec .initTournament (State.resetWith { Config.atReset with wL := 33 }))).map
      (fun s => (s.status, s.faultCode, s.mode)) = some (.faulted, 2, none) := by decide
/-- P3, step 0. -/
theorem test_init_custom : nextState (exec .initCustom State.reset) = some freshCustom := by decide
/-- V-F4: the tables are kept. -/
theorem test_reinit :
    (nextState (exec .initTournament freshGshare)).map (fun s => (s.faultCode, s.response, s.m))
      = some (4, some 8, gshareInit) := by decide
/-- P1, the sixth PREDICT reads PHT[11]. -/
theorem test_predict_gshare :
    (nextState (exec (.predict 0x4) (readyWith Config.atReset (.gshare trainedGshare)))).map (·.response)
      = some (some 1) := by decide
/-- P2, step 8: PREDICT of 0x2 answers Taken. -/
theorem test_predict_tournament :
    (nextState (exec (.predict 0x2) (readyWith Config.atReset (.tournament
      { ghr := 2, lht := [(1, 2), (2, 3)], lpht := [(0, 3), (1, 0), (2, 2), (3, 2)],
        gpht := [(0, 2), (1, 3), (2, 2), (3, 0)], chooser := [] })))).map (·.response) = some (some 1) := by decide
/-- P3, step 1. -/
theorem test_predict_custom :
    nextState (exec (.predict 0x10) freshCustom) = some { predictedCustom with response := some 1 } := by decide
/-- V-N1: the first TRAIN of P1. -/
theorem test_train_gshare :
    (nextState (exec (.train 0x4 true) freshGshare)).map (·.m) = some (.gshare { ghr := 1, pht := [(4, 2)] }) := by decide
/-- The example of R152 (P2, step 2). -/
theorem test_train_tournament :
    (nextState (exec (.train 0x2 true) (readyWith Config.atReset (.tournament beforeStep2)))).map (·.m)
      = some (.tournament { ghr := 3, lht := [(1, 1), (2, 1)], lpht := [(0, 3)], gpht := [(0, 2), (1, 2)],
                            chooser := [(1, 1)] }) := by decide
/-- Section 2.10: static TRAIN changes nothing. -/
theorem test_train_static : nextState (exec (.train 0x4 true) staticBlock) = some staticBlock := by decide
/-- P3, step 1. -/
theorem test_train_custom :
    (nextState (exec (.train 0x10 true) predictedCustom)).map (·.m)
      = some (.perceptron { predictedPerceptron with
          w := [(304, [1, -1, -1])], hist := [true, false], scrValid := false }) := by decide
/-- V-F5b: the scratch is kept. -/
theorem test_order_violation :
    (nextState (exec (.train 0x11 true) predictedCustom)).map (fun s => (s.faultCode, s.faultCmd, s.response, s.m))
      = some (5, 0x8800000011, some 0xA, .perceptron predictedPerceptron) := by decide
/-- V-P1: RESERVED before NOT_INITIALIZED. -/
theorem test_reserved_first :
    (nextState (issue 0x4800000004 State.reset)).map (fun s => (s.faultCode, s.response)) = some (1, some 2) := by decide
/-- V-P3: a FAULTED block ignores INIT. -/
theorem test_faulted_ignores :
    nextState (issue 0xD000000000 faultedBlock) = some { faultedBlock with response := some 6 } := by decide
/-- The numbers of R32, and R241: FAULTED is no successful end. -/
theorem test_status :
    Status.uninit.bits = 0 ∧ Status.ready.bits = 1 ∧ Status.faulted.bits = 2 ∧ faultedBlock.unfaulted = false ∧
    freshGshare.unfaulted = true := by decide
/-- V-R1: hardware reset leaves FAULTED. -/
theorem test_hardware_reset :
    nextState (step { faultedBlock with port := [.hardwareReset Config.atReset] }) = some State.reset := by decide

/-! ### Witnesses

`witness_<Name>` gives a concrete input that meets the hypotheses of `Obligations.<Name>`, one conjunct or theorem for each
of its clauses. Statements without hypotheses have none. -/

theorem witness_DecodeAndEncodeAgree :
    Instr.wellFormed (.train 0xFFFFFFFF true) = true ∧ decode 0x88FFFFFFFF = .ok (.train 0xFFFFFFFF true) ∧
    encode (.train 0xFFFFFFFF true) = 0x88FFFFFFFF := ⟨rfl, rfl, by decide⟩

theorem witness_LegalWordsAreTheListedOnes :
    decode 0xF000000000 = .ok (initInstr .custom) ∧ decode 0x40FFFFFFFF = .ok (.predict 0xFFFFFFFF) ∧
    decode 0x80FFFFFFFF = .ok (.train 0xFFFFFFFF false) := ⟨rfl, rfl, rfl⟩

/-- One word for each clause, the INIT clause with its mode. -/
theorem witness_ReservedWordsAreTheListedOnes :
    ((0x40FFFFFFFF#40).extractLsb' 38 2 = 1 ∧ (0x40FFFFFFFF#40).extractLsb' 36 2 = 0 ∧
      (0x40FFFFFFFF#40).getLsbD 35 = false ∧ (0x40FFFFFFFF#40).extractLsb' 32 3 = 0) ∧
    ((0x88FFFFFFFF#40).extractLsb' 38 2 = 2 ∧ (0x88FFFFFFFF#40).extractLsb' 36 2 = 0 ∧
      (0x88FFFFFFFF#40).extractLsb' 32 3 = 0) ∧
    ((0xF000000000#40).extractLsb' 38 2 = 3 ∧ (0xF000000000#40).getLsbD 35 = false ∧
      (0xF000000000#40).extractLsb' 32 3 = 0 ∧ (0xF000000000#40).extractLsb' 0 32 = 0 ∧
      Mode.custom.bits = (0xF000000000#40).extractLsb' 36 2) ∧
    (∃ e, decode 0x3FFFFFFFFF = .error e) ∧ State.reset.status ≠ .faulted :=
  ⟨by decide, by decide, by decide, ⟨_, rfl⟩, by decide⟩

theorem witness_PseudoInstructionsExpand : 0xFFFFFFFF < 2 ^ 32 := by decide

theorem witness_AssemblerRejectsLargePcs : 2 ^ 32 ≤ 4294967296 := by decide

/-- A legal word, a RESERVED word while UNINIT, a RESERVED word while FAULTED, and a 40-bit number. -/
theorem witness_StepRunsDecodedCommand :
    (State.offer 0xD000000000 State.reset).port = .command 0xD000000000 :: [] ∧
    decode 0xD000000000 = .ok .initGshare ∧
    (State.offer 0 State.reset).port = .command 0 :: [] ∧ decode 0 = .error .opReserved ∧
    (State.offer 0 State.reset).status ≠ .faulted ∧
    (State.offer 0 faultedBlock).port = .command 0 :: [] ∧ (State.offer 0 faultedBlock).status = .faulted ∧
    2 ^ 40 - 1 < 2 ^ 40 := ⟨rfl, rfl, rfl, rfl, by decide, rfl, rfl, by decide⟩

theorem witness_NothingButInputsChangesState :
    State.reset.port = [] ∧
    ∃ s', step (State.offer 0xD000000000 State.reset) = .next s' ∧ s' ≠ State.offer 0xD000000000 State.reset :=
  ⟨rfl, _, rfl, by decide⟩

theorem witness_HardwareResetClearsEverything :
    State.port { faultedBlock with port := [.hardwareReset Config.atReset] } = .hardwareReset Config.atReset :: [] := rfl

theorem witness_FaultedBlockIgnoresEveryCommand : faultedBlock.status = .faulted := rfl

theorem witness_OnlyHardwareResetLeavesFaulted :
    State.status { faultedBlock with port := [.hardwareReset Config.atReset] } = .faulted ∧
    ∃ s', step { faultedBlock with port := [.hardwareReset Config.atReset] } = .next s' ∧ s'.status ≠ .faulted :=
  ⟨rfl, _, rfl, by decide⟩

theorem witness_ReservedWordFaults :
    decode 0x4800000004 = .error .predictWithOutcome ∧ freshGshare.status ≠ .faulted := ⟨rfl, by decide⟩

theorem witness_CommandsBeforeInitFault : State.reset.status = .uninit := rfl

theorem witness_SecondInitFaults : freshGshare.status = .ready := rfl

/-- One configuration for each clause, each at the edge of a range. -/
theorem witness_InitWithBadConfigurationFaults :
    State.reset.status = .uninit ∧ cfgOk { Config.atReset with wG := 33 } .gshare = false ∧
    (¬ (1 ≤ { Config.atReset with wG := 0 }.wG ∧ { Config.atReset with wG := 0 }.wG ≤ 32)) ∧
    (¬ (1 ≤ { Config.atReset with wPc := 33 }.wPc ∧ { Config.atReset with wPc := 33 }.wPc ≤ 32)) ∧
    (¬ (1 ≤ { Config.atReset with pH := 0 }.pH)) := by decide

/-- Clauses 2, 3 and 4 of the statement. -/
theorem witness_ConfigurationCheckByMode :
    Config.atReset.capacity = none ∧ cfgOk { Config.atReset with wG := 1, capacity := some 4 } .gshare = true ∧
    { Config.atReset with capacity := some 0 }.capacity = some 0 ∧ Mode.gshare ≠ .static := by decide

theorem witness_FaultChecksFollowPriority : freshCustom.inv = true ∧ predictedCustom.inv = true := by decide

theorem witness_FaultsArePrecise :
    ∃ s', issue 0x8800000011 predictedCustom = .next s' ∧ predictedCustom.status ≠ .faulted ∧ s'.status = .faulted :=
  ⟨_, rfl, by decide, by decide⟩

theorem witness_ModeIsFixedForTheRun :
    ∃ s₁ s₂, exec (initInstr .gshare) State.reset = .next s₁ ∧ s₁.status = .ready ∧
      issueAll [0x8800000004, 0xE000000000] s₁ = .next s₂ := ⟨_, _, rfl, rfl, rfl⟩

/-- An accepted PREDICT that answers Taken, and a command to a FAULTED block. -/
theorem witness_ResponseFieldsOfEveryCommand :
    (freshCustom.inv = true ∧ firstFault 0x4000000010 freshCustom = 0 ∧ decode 0x4000000010 = .ok (.predict 0x10) ∧
      ∃ s', issue 0x4000000010 freshCustom = .next s' ∧ s'.response = some 1) ∧
    (faultedBlock.inv = true ∧ faultedBlock.status = .faulted ∧ ∃ s', issue 0 faultedBlock = .next s') :=
  ⟨⟨by decide, by decide, rfl, _, rfl, rfl⟩, by decide, rfl, _, rfl⟩

theorem witness_CommandsKeepConfigurationAndThreshold :
    freshCustom.status = .ready ∧ freshCustom.m = .perceptron freshPerceptron ∧
    ∃ s', issue 0x4000000010 freshCustom = .next s' ∧ s'.m = .perceptron predictedPerceptron := ⟨rfl, rfl, _, rfl, rfl⟩

theorem witness_OnlyTrainChangesTablesAndHistories :
    freshCustom.status ≠ .uninit ∧ decode 0x4000000010 = .ok (.predict 0x10) ∧
    (∀ pc o, (.ok (.predict 0x10) : Except DecodeError Instr) ≠ .ok (.train pc o)) ∧
    ∃ s', issue 0x4000000010 freshCustom = .next s' :=
  ⟨by decide, rfl, fun _ _ h => by simp at h, _, rfl⟩

theorem witness_InitStaticCompletes : State.reset.status = .uninit := rfl

/-- Both edges of the range pass, and both values outside it do not. -/
theorem witness_InitGshareBuildsItsTables :
    State.reset.status = .uninit ∧ cfgOk { Config.atReset with wG := 1 } .gshare = true ∧
    cfgOk { Config.atReset with wG := 32 } .gshare = true ∧ cfgOk { Config.atReset with wG := 0 } .gshare = false ∧
    ¬ (1 ≤ { Config.atReset with wG := 33 }.wG ∧ { Config.atReset with wG := 33 }.wG ≤ 32) := by decide

theorem witness_InitTournamentBuildsItsTables :
    State.reset.status = .uninit ∧ cfgOk { Config.atReset with wL := 32, wPc := 1 } .tournament = true ∧
    cfgOk { Config.atReset with wL := 33 } .tournament = false ∧ ¬ (1 ≤ { Config.atReset with wPc := 0 }.wPc) := by
  decide

/-- P_H = 1, with the threshold computed and with an override; and the edges outside the ranges. -/
theorem witness_InitCustomBuildsItsTables :
    State.reset.status = .uninit ∧ cfgOk { Config.atReset with pH := 1 } .custom = true ∧
    { Config.atReset with pH := 1 }.pTheta = none ∧ cfgOk { Config.atReset with pTheta := some 0 } .custom = true ∧
    cfgOk { Config.atReset with pTheta := some (-1) } .custom = false ∧
    ¬ ({ Config.atReset with pWb := 33 }.pWb ≤ 32) := by decide

theorem witness_StaticModeAlwaysTaken : staticBlock.status = .ready ∧ staticBlock.m = .static := ⟨rfl, rfl⟩

theorem witness_GsharePredictReadsHashedCounter :
    freshGshare.status = .ready ∧ freshGshare.m = .gshare { ghr := 0, pht := [] } := ⟨rfl, rfl⟩

theorem witness_GshareTrainUpdatesOneCounter :
    (readyWith Config.atReset (.gshare trainedGshare)).inv = true ∧
    (readyWith Config.atReset (.gshare trainedGshare)).status = .ready ∧
    (readyWith Config.atReset (.gshare trainedGshare)).m = .gshare trainedGshare := by decide

theorem witness_TournamentPredictSelectsByChooser :
    (readyWith Config.atReset (.tournament beforeStep2)).status = .ready ∧
    (readyWith Config.atReset (.tournament beforeStep2)).m = .tournament beforeStep2 := ⟨rfl, rfl⟩

theorem witness_TournamentTrainUpdatesFromOldState :
    (readyWith (Config.withWidths 2 2 2 2) (.tournament beforeStep2)).inv = true ∧
    (readyWith (Config.withWidths 2 2 2 2) (.tournament beforeStep2)).status = .ready ∧
    (readyWith (Config.withWidths 2 2 2 2) (.tournament beforeStep2)).m = .tournament beforeStep2 := by decide

theorem witness_PerceptronPredictWritesScratchOnly :
    freshCustom.inv = true ∧ freshCustom.status = .ready ∧ freshCustom.m = .perceptron freshPerceptron := by decide

/-- Unpaired for want of a PREDICT, unpaired for another pc, paired with a thin margin, paired with a wide one. -/
theorem witness_PerceptronTrainUpdatesOneRow :
    freshCustom.inv = true ∧ freshPerceptron.scrValid = false ∧
    predictedCustom.inv = true ∧ predictedCustom.m = .perceptron predictedPerceptron ∧
    predictedPerceptron.scrPc ≠ 0x11 ∧ predictedPerceptron.scrValid = true ∧ predictedPerceptron.scrPc = 0x10 ∧
    predictedPerceptron.needsTrain = true ∧
    (readyWith Config.atReset (.perceptron wideMargin)).inv = true ∧ wideMargin.scrPc = 0x4 ∧
    wideMargin.lastPred = true ∧ wideMargin.needsTrain = false := by decide

/-- A mode without scratch, and the perceptron. -/
theorem witness_PredictIsRepeatable :
    (staticBlock.status = .ready ∧ (∀ p, staticBlock.m ≠ .perceptron p) ∧
      ∃ s', exec (.predict 0) staticBlock = .next s') ∧
    (freshCustom.status = .ready ∧ freshCustom.m = .perceptron freshPerceptron ∧
      ∃ s', exec (.predict 0x10) freshCustom = .next s') :=
  ⟨⟨rfl, by simp [staticBlock, readyWith], _, rfl⟩, rfl, rfl, _, rfl⟩

theorem witness_CounterSaturatesAndStays :
    3 ≤ 3 ∧ 2 ≤ 2 ∧ (1 : Counter) = (if true then 1 else 2) ∧ (2 : Counter) = (if false then 1 else 2) := by decide

/-- The narrowest history, and one whose top bit is discarded. -/
theorem witness_HistoryShiftsInAtBitZero : 1 ≤ 1 ∧ 1 < 2 ^ 1 ∧ 0b1010 < 2 ^ 4 ∧ 2 + 1 < 4 := by decide

theorem witness_WindowShiftIsHistoryShift : 1 ≤ [true].length ∧ 1 + 1 < [true, false, true].length := by decide

/-- W_g = 32, a pc that equals the history, and two pcs that alias. -/
theorem witness_GshareIndexFoldsLowBits :
    (Config.withWidths 32 2 2 2).wG = 32 ∧ (0x35#32).toNat % 2 ^ Config.atReset.wG = 5 ∧
    (0x35#32).toNat % 2 ^ Config.atReset.wG = (0x45#32).toNat % 2 ^ Config.atReset.wG := by decide

theorem witness_IndicesStayInRange : 1 ≤ { Config.atReset with pN := 1 }.pN := by decide

theorem witness_TournamentIndicesAreLowBits :
    3 < 2 ^ Config.atReset.wL ∧
    (0x1#32).toNat % 2 ^ Config.atReset.wPc = (0x5#32).toNat % 2 ^ Config.atReset.wPc := by decide

/-- Both settings of P_HASH_WRAP, an alias, the last pc on which they agree, and the defaults. -/
theorem witness_PerceptronHashWithAndWithoutWrap :
    Config.atReset.pHashWrap = true ∧ { Config.atReset with pHashWrap := false }.pHashWrap = false ∧
    (426#32).toNat = (0#32).toNat + { Config.atReset with pHashWrap := false }.pN ∧
    Config.atReset.pMul = 19 ∧ (0x0D79435E#32).toNat < 0x0D79435F ∧ Config.atReset.pN = 426 := by decide

/-- Both sides of the selection at their edges, both moves at their bounds, and agreement. -/
theorem witness_ChooserSelectsAndMoves :
    (1 : Counter).toNat ≤ 1 ∧ 2 ≤ (2 : Counter).toNat ∧ (true = true ∧ false ≠ true) ∧ (false ≠ true ∧ true = true) := by
  decide

theorem witness_ChooserEntriesMoveByOldPredictions :
    ∃ s' t', (readyWith Config.atReset (.tournament beforeStep2)).inv = true ∧
      (readyWith Config.atReset (.tournament beforeStep2)).status = .ready ∧
      issue 0x8800000002 (readyWith Config.atReset (.tournament beforeStep2)) = .next s' ∧
      s'.m = .tournament t' ∧
      tabRead (chooserShape Config.atReset) beforeStep2.chooser 1 = some 2 ∧
      tabRead (chooserShape Config.atReset) t'.chooser 1 = some 1 :=
  ⟨_, _, by decide, rfl, rfl, rfl, rfl, rfl⟩

/-- The example of R154, in the state before step 2 of program P2. -/
theorem witness_ChooserFollowsTheOldRightSide :
    (readyWith Config.atReset (.tournament beforeStep2)).inv = true ∧
    tabRead (chooserShape Config.atReset) beforeStep2.chooser (tournGidx Config.atReset beforeStep2.ghr) = some 2 ∧
    tabRead (lhtShape Config.atReset) beforeStep2.lht (tournPcidx Config.atReset 0x2) = some 0 ∧
    tabRead (lphtShape Config.atReset) beforeStep2.lpht (tournLidx Config.atReset 0) = some 2 ∧
    tabRead (gphtShape Config.atReset) beforeStep2.gpht (tournGidx Config.atReset beforeStep2.ghr) = some 1 ∧
    ctrRead 2 ≠ ctrRead 1 := by decide

/-- The row with the largest sum that P_H = 2 admits. -/
theorem witness_PerceptronSumIsExactAndBounded :
    [-128, -128].length = [false, false].length ∧ rowBounded Config.atReset [-128, -128, -128] = true := by decide

theorem witness_PerceptronUpdateMovesEachLane :
    [127, -128, 127].length = [true, false].length + 1 ∧ [127, -128, 127][0]? = some 127 ∧
    [127, -128, 127][1 + 1]? = some 127 ∧ [true, false][1]? = some false := by decide

theorem witness_PerceptronFlagsAreStrict : (1 : Int) ≤ 1 := by decide

theorem witness_ThresholdRoundsHalvesUpward :
    (Config.withWidths 4 2 2 50).pTheta = none ∧ (Config.withWidths 4 2 2 50).pH = 50 ∧
    { Config.atReset with pTheta := some 7 }.pTheta = some 7 := by decide

/-- Two blocks with one gshare state that differ in other widths and in the response. -/
theorem witness_GshareRunsAreDeterminedByTheSequence :
    freshGshare.status = .ready ∧ (readyWith (Config.withWidths 4 7 8 9) gshareInit).status = .ready ∧
    freshGshare.m = .gshare { ghr := 0, pht := [] } ∧
    (readyWith (Config.withWidths 4 7 8 9) gshareInit).m = .gshare { ghr := 0, pht := [] } ∧
    freshGshare.cfg.wG = (readyWith (Config.withWidths 4 7 8 9) gshareInit).cfg.wG := by decide

/-- Clauses 1, 2 and 4 from the fresh table with 4, 6 and 5 TRAINs; clause 3 from a history at its fixed point whose
counter is in the weak state of the opposite direction. -/
theorem witness_GshareConvergesOnConstantBranch :
    (freshGshare.inv = true ∧ freshGshare.status = .ready ∧ freshGshare.m = .gshare { ghr := 0, pht := [] } ∧
      freshGshare.cfg.wG = 4) ∧
    ((readyWith Config.atReset (.gshare { ghr := 15, pht := [] })).inv = true ∧
      (15 : Nat) = (if true then 2 ^ Config.atReset.wG - 1 else 0) ∧ 1 ≤ 1 ∧
      tabRead (phtShape Config.atReset) [] (gshareIdx Config.atReset 0x4 15) = some (if true then 1 else 2)) := by
  decide

/-- A thin margin, and a margin of exactly P_THETA. -/
theorem witness_PerceptronTrainsOnThinMargin :
    (freshCustom.inv = true ∧ readRow Config.atReset freshPerceptron (percIdx Config.atReset 0x10) = some [0, 0, 0] ∧
      true = decide (0 ≤ percOut [0, 0, 0] freshPerceptron.hist) ∧
      ((percOut [0, 0, 0] freshPerceptron.hist).natAbs : Int) < freshPerceptron.theta) ∧
    ((readyWith Config.atReset (.perceptron wideMargin)).inv = true ∧
      readRow Config.atReset wideMargin (percIdx Config.atReset 0x4) = some [10, 5, -3] ∧
      true = decide (0 ≤ percOut [10, 5, -3] wideMargin.hist) ∧
      wideMargin.theta ≤ (percOut [10, 5, -3] wideMargin.hist).natAbs) := by decide

theorem witness_PerceptronWeightsStayBounded :
    (∃ s' p', predictedCustom.inv = true ∧ issueAll [0x8800000010] predictedCustom = .next s' ∧
      s'.m = .perceptron p' ∧ readRow s'.cfg p' 304 = some [1, -1, -1]) ∧
    wMin Config.atReset ≤ -128 ∧ (-128 : Int) ≤ wMax Config.atReset ∧ 2 ^ Config.atReset.pWb ≤ 256 :=
  ⟨⟨_, _, by decide, rfl, rfl, rfl⟩, by decide, by decide, by decide⟩

theorem witness_HarnessContractNeverFaults : cfgOk Config.atReset .custom = true := by decide

/-- A perceptron that has a row to train, and a gshare with a history. -/
theorem witness_PairedStepNeverFaults :
    ((readyWith Config.atReset (.perceptron wideMargin)).inv = true ∧
      (readyWith Config.atReset (.perceptron wideMargin)).status = .ready) ∧
    ((readyWith Config.atReset (.gshare trainedGshare)).inv = true ∧
      (readyWith Config.atReset (.gshare trainedGshare)).status = .ready) := by decide

theorem witness_StepKeepsInvariant :
    ∃ s', (State.offer 0x8800000010 predictedCustom).inv = true ∧
      step (State.offer 0x8800000010 predictedCustom) = .next s' ∧ s' ≠ State.offer 0x8800000010 predictedCustom :=
  ⟨_, by decide, rfl, by decide⟩

theorem witness_NoStepStopsTheMachine : (State.offer 0x4000000010 predictedCustom).inv = true := by decide

end Sys2Proof.Tests
end

section
/-!
The perceptron's threshold (R15): the computed value as a rounding, and which value a configuration has.
-/

namespace Sys2Proof.Machine

theorem pTheta_of_none {cfg : Config} (h : cfg.pTheta = none) : pTheta cfg = thetaOf cfg.pH := by
  simp [pTheta, h]

theorem pTheta_of_some {cfg : Config} {t : Int} (h : cfg.pTheta = some t) : pTheta cfg = t := by
  simp [pTheta, h]

/-- Rounding halves upward is the floor of the value plus one half; here it is scaled by 100 (R15). -/
theorem thetaOf_rounds (pH : Nat) :
    100 * thetaOf pH ≤ 193 * pH + 1400 + 50 ∧ 193 * pH + 1400 + 50 < 100 * thetaOf pH + 100 := by
  unfold thetaOf
  omega

/-- The constant 14 of the formula is a lower bound: the rounding never falls below it. -/
theorem le_thetaOf (pH : Nat) : 14 ≤ thetaOf pH := by
  have h := thetaOf_rounds pH
  omega

/-- Settles O50: the floor of the value plus one half, `thetaOf_rounds`, gives the bounds. -/
theorem thresholdRoundsHalvesUpward : Obligations.ThresholdRoundsHalvesUpward := by
  intro cfg
  refine ⟨fun hnone => ?_, fun _ => pTheta_of_some⟩
  rw [pTheta_of_none hnone]
  obtain ⟨hle, hlt⟩ := thetaOf_rounds cfg.pH
  have at50 : cfg.pH = 50 → thetaOf cfg.pH = 111 := by
    intro h50
    rw [h50]
    decide
  exact ⟨rfl, at50, hle, hlt, le_thetaOf cfg.pH⟩

end Sys2Proof.Machine
end

section
/-!
What one command word can do, and what it leaves unchanged (R31, R36, R48, R74): the configuration and the port
always, P_THETA after INIT, and the tables and histories unless the word is a TRAIN.
-/

namespace Sys2Proof.Machine

/-- Everything a word that answers a next state can have done: ignored, RESERVED, a fault of its command, an INIT
accepted, or a PREDICT or TRAIN accepted (R210). -/
theorem issue_cases {c : Cmd} {s s' : State} (h : issue c s = .next s') :
    (s.status = .faulted ∧ s' = s.ignore) ∨
    (s.status ≠ .faulted ∧ (∃ e, decode c = .error e) ∧ s' = s.raise .reservedEncoding c) ∨
    (s.status ≠ .faulted ∧ ∃ i f, decode c = .ok i ∧ Raises s i f ∧ s' = s.raise f (encode i)) ∨
    (s.status = .uninit ∧ ∃ m, decode c = .ok (initInstr m) ∧ cfgOk s.cfg m = true ∧
      s' = State.accept false { s with m := initPredictor s.cfg m, status := .ready }) ∨
    (s.status = .ready ∧ ∃ i b m', decode c = .ok i ∧ Moves s.cfg i s.m b m' ∧
      s' = State.accept b { s with m := m' }) := by
  cases hd : decode c with
  | error e =>
    by_cases hf : s.status = .faulted
    · rw [issue_faulted hf] at h
      exact .inl ⟨hf, (next_inj h).symm⟩
    · rw [issue_reserved hd hf] at h
      exact .inr (.inl ⟨hf, ⟨e, rfl⟩, (next_inj h).symm⟩)
  | ok i =>
    rw [issue_decoded hd] at h
    obtain hignored | ⟨hf, f, hs', hr⟩ | ⟨hs, m, rfl, hc, hs'⟩ | ⟨hs, b, m', hs', hmv⟩ := exec_cases h
    · exact .inl hignored
    · exact .inr (.inr (.inl ⟨hf, i, f, rfl, hr, hs'⟩))
    · exact .inr (.inr (.inr (.inl ⟨hs, m, rfl, hc, hs'⟩)))
    · exact .inr (.inr (.inr (.inr ⟨hs, i, b, m', rfl, hmv, hs'⟩)))

/-- No command writes the configuration or takes an input from the port (R36; log 1). -/
theorem issue_cfg_port {c : Cmd} {s s' : State} (h : issue c s = .next s') :
    s'.cfg = s.cfg ∧ s'.port = s.port := by
  obtain ⟨-, rfl⟩ | ⟨-, -, rfl⟩ | ⟨-, i, f, -, -, rfl⟩ | ⟨-, m, -, -, rfl⟩ | ⟨-, i, b, m', -, -, rfl⟩ := issue_cases h
  all_goals exact ⟨rfl, rfl⟩

/-- A word keeps `M` unless it is an INIT accepted in an UNINIT block, or a PREDICT or TRAIN accepted in a READY one
(R211 to R213, R239, R241). -/
theorem issue_m_cases {c : Cmd} {s s' : State} (h : issue c s = .next s') :
    s'.m = s.m ∨
    (s.status = .uninit ∧ ∃ m, decode c = .ok (initInstr m) ∧ s'.m = initPredictor s.cfg m) ∨
    (s.status = .ready ∧ ∃ i b, decode c = .ok i ∧ Moves s.cfg i s.m b s'.m) := by
  obtain ⟨-, rfl⟩ | ⟨-, -, rfl⟩ | ⟨-, i, f, -, -, rfl⟩ | ⟨hs, m, hd, -, rfl⟩ | ⟨hs, i, b, m', hd, hmv, rfl⟩ :=
    issue_cases h
  · exact .inl rfl
  · exact .inl rfl
  · exact .inl rfl
  · exact .inr (.inl ⟨hs, m, hd, rfl⟩)
  · exact .inr (.inr ⟨hs, i, b, hd, hmv⟩)

/-- An accepted PREDICT or TRAIN of the perceptron keeps P_THETA (R48). -/
theorem Moves.theta_eq {cfg : Config} {i : Instr} {p p' : Perceptron} {b : Bool}
    (h : Moves cfg i (.perceptron p) b (.perceptron p')) : p'.theta = p.theta := by
  cases h with
  | percPredict => rfl
  | percKeep => rfl
  | percAdjust => rfl

/-- An accepted PREDICT writes the perceptron's scratch registers at most (R74). -/
theorem Moves.withoutScratch_eq_of_predict {cfg : Config} {pc : Pc} {m m' : Predictor} {b : Bool}
    (h : Moves cfg (.predict pc) m b m') : m'.withoutScratch = m.withoutScratch := by
  cases h with
  | staticPredict => rfl
  | gsharePredict => rfl
  | tournPredict => rfl
  | percPredict => rfl

/-- Only PREDICT and TRAIN move `M`. -/
theorem Moves.predict_or_train {cfg : Config} {i : Instr} {m m' : Predictor} {b : Bool} (h : Moves cfg i m b m') :
    (∃ pc, i = .predict pc) ∨ (∃ pc o, i = .train pc o) := by
  cases h with
  | staticPredict pc | gsharePredict pc | tournPredict pc | percPredict pc => exact .inl ⟨pc, rfl⟩
  | staticTrain pc o | gshareTrain pc o | tournTrain pc o | percKeep pc o | percAdjust pc o =>
    exact .inr ⟨pc, o, rfl⟩

/-- Settles O22: of the ways a word changes `M`, only an accepted PREDICT or TRAIN starts from a READY block. -/
theorem commandsKeepConfigurationAndThreshold : Obligations.CommandsKeepConfigurationAndThreshold := by
  intro c s s' h
  obtain ⟨hcfg, hport⟩ := issue_cfg_port h
  refine ⟨hcfg, hport, fun p p' hready hp hp' => ?_⟩
  obtain hkeep | ⟨huninit, -⟩ | ⟨-, i, b, -, hmv⟩ := issue_m_cases h
  · have hpp : p' = p := Predictor.perceptron.inj (hp'.symm.trans (hkeep.trans hp))
    rw [hpp]
  · rw [hready] at huninit
    cases huninit
  · rw [hp, hp'] at hmv
    exact hmv.theta_eq

/-- Settles O23: after INIT a word that is no TRAIN keeps `M`, or is an accepted PREDICT. -/
theorem onlyTrainChangesTablesAndHistories : Obligations.OnlyTrainChangesTablesAndHistories := by
  intro c s s' hinit h hnoTrain
  obtain hkeep | ⟨huninit, -⟩ | ⟨-, i, b, hd, hmv⟩ := issue_m_cases h
  · rw [hkeep]
  · exact absurd huninit hinit
  · obtain ⟨pc, rfl⟩ | ⟨pc, o, rfl⟩ := hmv.predict_or_train
    · exact hmv.withoutScratch_eq_of_predict
    · exact absurd hd (hnoTrain pc o)

end Sys2Proof.Machine
end

section
/-!
The index rules and the ranges of the tables (R61, R62), and PREDICT as a command that may be repeated (R74).
-/

namespace Sys2Proof.Machine

/-- Settles O41: each table has as many entries as its index rule has remainders, so the bounds of
Laws/Indices.lean are the ranges. -/
theorem indicesStayInRange : Obligations.IndicesStayInRange := by
  intro cfg pc h
  refine ⟨?pht, ?gpht, ?chooser, ?lht, ?lpht, ?w⟩
  case pht => exact gshareIdx_lt cfg pc h
  case gpht => exact tournGidx_lt cfg h
  case chooser => exact tournGidx_lt cfg h
  case lht => exact tournPcidx_lt cfg pc
  case lpht => exact tournLidx_lt cfg h
  case w => exact percIdx_lt cfg pc

/-- The only fault of PREDICT is that of a block before INIT (R233). -/
theorem Raises.uninit_of_predict {s : State} {pc : Pc} {f : FaultCause} (h : Raises s (.predict pc) f) :
    s.status = .uninit := by
  generalize hi : Instr.predict pc = i at h
  cases h with
  | reinit m => cases m <;> cases hi
  | configInvalid m huninit => exact huninit
  | notInitialized _ huninit => exact huninit
  | orderViolation => cases hi

/-- A PREDICT that moves `M` from `m` to `m'` is what a READY block with `M` = `m` runs (R212). -/
theorem exec_predict_of_moves {s : State} {pc : Pc} {b : Bool} {m' : Predictor} (hs : s.status = .ready)
    (h : Moves s.cfg (.predict pc) s.m b m') :
    exec (.predict pc) s = .next (State.accept b { s with m := m' }) := by
  obtain ⟨-, hstatic, hgshare, htourn, hperc⟩ := exec_predict_ready hs pc
  generalize hm : s.m = m at h
  cases h with
  | staticPredict =>
    rw [hstatic hm, State.with_m hm]
    rfl
  | gsharePredict _ g => rw [hgshare g hm, gsharePredict_eq, State.with_m hm]
  | tournPredict _ t => rw [htourn t hm, tournPredict_eq, State.with_m hm]
  | percPredict _ p row hrow => rw [hperc p hm, percPredict_eq hrow]

/-- What PREDICT can answer in a READY block: exactly the moves of `M` that `Moves` lists. -/
theorem exec_predict_eq_next_iff {s s' : State} {pc : Pc} (hs : s.status = .ready) :
    exec (.predict pc) s = .next s' ↔
      ∃ b m', s' = State.accept b { s with m := m' } ∧ Moves s.cfg (.predict pc) s.m b m' := by
  constructor
  · intro h
    obtain ⟨hf, -⟩ | ⟨-, f, -, hr⟩ | ⟨hu, -⟩ | ⟨-, hmoves⟩ := exec_cases h
    · cases hs.symm.trans hf
    · cases hs.symm.trans hr.uninit_of_predict
    · cases hs.symm.trans hu
    · exact hmoves
  · rintro ⟨b, m', rfl, hmv⟩
    exact exec_predict_of_moves hs hmv

/-- A PREDICT repeated on the `M` that it left answers the same and leaves that `M`: it read no scratch register,
and these are all it wrote (R74, R181). -/
theorem Moves.predict_again {cfg : Config} {pc : Pc} {m m' : Predictor} {b : Bool}
    (h : Moves cfg (.predict pc) m b m') : Moves cfg (.predict pc) m' b m' := by
  cases h with
  | staticPredict => exact .staticPredict pc
  | gsharePredict _ g => exact .gsharePredict pc g
  | tournPredict _ t => exact .tournPredict pc t
  | percPredict _ p row hrow => exact .percPredict pc (p.scratch pc (percOut row p.hist)) row hrow

/-- In modes 0 to 2 a PREDICT keeps `M` (R74). -/
theorem Moves.eq_of_predict {cfg : Config} {pc : Pc} {m m' : Predictor} {b : Bool}
    (h : Moves cfg (.predict pc) m b m') (hm : ∀ p, m ≠ .perceptron p) : m' = m := by
  cases h with
  | staticPredict => rfl
  | gsharePredict => rfl
  | tournPredict => rfl
  | percPredict _ p => exact absurd rfl (hm p)

/-- In mode 3 a PREDICT leaves the scratch of its pc (R181). -/
theorem Moves.scratch_of_predict {cfg : Config} {pc : Pc} {p : Perceptron} {m' : Predictor} {b : Bool}
    (h : Moves cfg (.predict pc) (.perceptron p) b m') : ∃ y, m' = .perceptron (p.scratch pc y) := by
  cases h with
  | percPredict _ _ row => exact ⟨percOut row p.hist, rfl⟩

/-- Settles O35: the second PREDICT makes the move of `Moves.predict_again`, and the first keeps `M` or leaves the
scratch of its pc. -/
theorem predictIsRepeatable : Obligations.PredictIsRepeatable := by
  intro s s' pc hs h
  obtain ⟨b, m', rfl, hmv⟩ := (exec_predict_eq_next_iff hs).mp h
  refine ⟨?again, fun hm => ?modes0to2, fun p hp => ?mode3⟩
  case again => exact exec_predict_of_moves (s := State.accept b { s with m := m' }) hs hmv.predict_again
  case modes0to2 =>
    rw [hmv.eq_of_predict hm]
    rfl
  case mode3 =>
    rw [hp] at hmv
    obtain ⟨y, rfl⟩ := hmv.scratch_of_predict
    exact ⟨percPred y, percNeeds p.theta y, rfl⟩

end Sys2Proof.Machine
end

section
/-!
Decoding and encoding (R80 to R86): they invert each other, the word of each command in numbers, and R85's branches
and its list of RESERVED words in the fields of the word.
-/

namespace Sys2Proof

/-! ### Decoding inverts encoding -/

/-- The INIT word of each MODE field (R82). -/
theorem encode_initOfMode (md : BitVec 2) : encode (initOfMode md) = packWord 0b11 md false 0 := by
  revert md
  decide

/-- The word of a command decodes to that command. -/
@[simp] theorem decode_encode (i : Instr) : decode (encode i) = .ok i := by
  cases i with
  | initStatic | initGshare | initTournament | initCustom => rfl
  | predict pc => simp [encode, decode]
  | train pc o => simp [encode, decode]

/-- A command has no word but its own: each branch of `decode` fixes every field, and `Cmd.eq_packWord` gives the word
from its fields. -/
theorem eq_encode_of_decode {c : Cmd} {i : Instr} (h : decode c = .ok i) : c = encode i := by
  unfold decode at h
  split_ifs at h with hpredict htrain hinit
  · obtain ⟨hop, hmode, hout, hrsv⟩ := hpredict
    have hword := Cmd.eq_packWord hrsv
    rw [hop, hmode, hout] at hword
    cases h
    exact hword
  · obtain ⟨hop, hmode, hrsv⟩ := htrain
    have hword := Cmd.eq_packWord hrsv
    rw [hop, hmode] at hword
    cases h
    exact hword
  · obtain ⟨hop, hout, hrsv, hpc⟩ := hinit
    have hword := Cmd.eq_packWord hrsv
    rw [hop, hout, hpc] at hword
    cases h
    exact hword.trans (encode_initOfMode c.mode).symm

theorem decode_eq_ok_iff {c : Cmd} {i : Instr} : decode c = .ok i ↔ c = encode i :=
  ⟨eq_encode_of_decode, fun h => h ▸ decode_encode i⟩

/-! ### The words in numbers -/

/-- PC stands in the low bits, so packing it is an OR (R80). -/
theorem packWord_eq_or (op md : BitVec 2) (o : Bool) (pc : Pc) :
    packWord op md o pc = packWord op md o 0 ||| pc.setWidth 40 := by
  refine BitVec.eq_of_getLsbD_eq fun i hi => ?_
  rw [BitVec.getLsbD_or, packWord_getLsbD, packWord_getLsbD, BitVec.getLsbD_setWidth]
  by_cases hpc : i < 32
  · simp [hpc, hi]
  · simp [hpc, BitVec.getLsbD_of_ge pc i (by omega)]

theorem encode_predict (pc : Pc) : encode (.predict pc) = 0x4000000000#40 ||| pc.setWidth 40 :=
  packWord_eq_or 0b01 0b00 false pc

theorem encode_train (pc : Pc) (o : Bool) :
    encode (.train pc o) = 0x8000000000#40 ||| ((BitVec.ofBool o).setWidth 40 <<< 35) ||| pc.setWidth 40 := by
  have hword : packWord 0b10 0b00 o 0 = 0x8000000000#40 ||| ((BitVec.ofBool o).setWidth 40 <<< 35) := by
    revert o
    decide
  rw [← hword]
  exact packWord_eq_or 0b10 0b00 o pc

/-! ### The branches of R85 -/

theorem decode_predict {c : Cmd} (hop : c.op = 1) (hmode : c.mode = 0) (hout : c.outcome = false) (hrsv : c.rsv = 0) :
    decode c = .ok (.predict c.pc) := by
  simp [decode, hop, hmode, hout, hrsv]

theorem decode_train {c : Cmd} (hop : c.op = 2) (hmode : c.mode = 0) (hrsv : c.rsv = 0) :
    decode c = .ok (.train c.pc c.outcome) := by
  simp [decode, hop, hmode, hrsv]

theorem decode_init {c : Cmd} (hop : c.op = 3) (hout : c.outcome = false) (hrsv : c.rsv = 0) (hpc : c.pc = 0) :
    decode c = .ok (initOfMode c.mode) := by
  simp [decode, hop, hout, hrsv, hpc]

/-- The four values of OP (R81). -/
theorem op_cases (op : BitVec 2) : op = 0 ∨ op = 1 ∨ op = 2 ∨ op = 3 := by
  revert op
  decide

/-- R85's list of RESERVED words, in the order of the list. -/
theorem decode_eq_error_iff {c : Cmd} : (∃ e, decode c = .error e) ↔
    c.op = 0 ∨ c.rsv ≠ 0 ∨ (c.op = 1 ∧ (c.mode ≠ 0 ∨ c.outcome = true)) ∨ (c.op = 2 ∧ c.mode ≠ 0) ∨
      (c.op = 3 ∧ (c.outcome = true ∨ c.pc ≠ 0)) := by
  have hbranches : (∃ e, decode c = .error e) ↔
      ¬ (c.op = 1 ∧ c.mode = 0 ∧ c.outcome = false ∧ c.rsv = 0) ∧ ¬ (c.op = 2 ∧ c.mode = 0 ∧ c.rsv = 0) ∧
        ¬ (c.op = 3 ∧ c.outcome = false ∧ c.rsv = 0 ∧ c.pc = 0) := by
    unfold decode
    split_ifs with hpredict htrain hinit
    · simp [hpredict]
    · simp [htrain]
    · simp [hinit]
    · exact ⟨fun _ => ⟨hpredict, htrain, hinit⟩, fun _ => ⟨_, rfl⟩⟩
  rw [hbranches]
  by_cases hrsv : c.rsv = 0#3
  · obtain hop | hop | hop | hop := op_cases c.op
    all_goals simp [hop, hrsv, imp_iff_not_or]
  · simp [hrsv]

end Sys2Proof

namespace Sys2Proof.Machine

theorem encode_initInstr (m : Mode) :
    encode (initInstr m) = 0xC000000000#40 ||| (m.bits.setWidth 40 <<< 36) := by
  cases m <;> decide

theorem initOfMode_bits (m : Mode) : initOfMode m.bits = initInstr m := by
  cases m <;> rfl

/-- Settles O3: the legal words are those of `encode`, written out. -/
theorem legalWordsAreTheListedOnes : Obligations.LegalWordsAreTheListedOnes := by
  refine ⟨fun c m => ?init, fun c pc => ?predict, fun c pc o => ?train, fun _ i _ => instr_cases i⟩
  case init => rw [decode_eq_ok_iff, encode_initInstr]
  case predict => rw [decode_eq_ok_iff, encode_predict]
  case train => rw [decode_eq_ok_iff, encode_train]

/-- Settles O4: R85's branches and its list, and the fault that every RESERVED word raises. -/
theorem reservedWordsAreTheListedOnes : Obligations.ReservedWordsAreTheListedOnes := by
  intro c
  refine ⟨?predict, ?train, ?init, decode_eq_error_iff, ?fault⟩
  case predict =>
    rintro ⟨hop, hmode, hout, hrsv⟩
    exact decode_predict hop hmode hout hrsv
  case train =>
    rintro ⟨hop, hmode, hrsv⟩
    exact decode_train hop hmode hrsv
  case init =>
    rintro ⟨hop, hout, hrsv, hpc⟩ m hm
    rw [← initOfMode_bits, hm]
    exact decode_init hop hout hrsv hpc
  case fault =>
    intro e hd s hs
    exact ⟨s.raise .reservedEncoding c, issue_reserved hd hs, rfl, rfl, rfl⟩

end Sys2Proof.Machine
end

section
/-!
The response of every command (R87): its FAULT field is the code of the first check that applies (R238), and its PRED
is the prediction of the selected mode.
-/

namespace Sys2Proof.Machine

/-! ### The first check that applies -/

theorem firstFault_faulted {c : Cmd} {s : State} (h : s.status = .faulted) : firstFault c s = s.faultCode := by
  simp [firstFault, h]

theorem firstFault_reserved {c : Cmd} {s : State} {e : DecodeError} (h : s.status ≠ .faulted)
    (hd : decode c = .error e) : firstFault c s = 1 := by
  simp [firstFault, h, hd]

theorem firstFault_init_ready {c : Cmd} {s : State} {m : Mode} (h : s.status = .ready)
    (hd : decode c = .ok (initInstr m)) : firstFault c s = 4 := by
  simp [firstFault, h, hd]

theorem firstFault_init_rejected {c : Cmd} {s : State} {m : Mode} (h : s.status = .uninit)
    (hd : decode c = .ok (initInstr m)) (hc : cfgOk s.cfg m = false) : firstFault c s = 2 := by
  simp [firstFault, h, hd, hc]

theorem firstFault_init_accepted {c : Cmd} {s : State} {m : Mode} (h : s.status = .uninit)
    (hd : decode c = .ok (initInstr m)) (hc : cfgOk s.cfg m = true) : firstFault c s = 0 := by
  simp [firstFault, h, hd, hc]

theorem firstFault_uninit {c : Cmd} {s : State} {i : Instr} (h : s.status = .uninit) (hd : decode c = .ok i)
    (hi : initMode i = none) : firstFault c s = 3 := by
  simp [firstFault, h, hd, hi]

theorem firstFault_predict {c : Cmd} {s : State} {pc : Pc} (h : s.status = .ready)
    (hd : decode c = .ok (.predict pc)) : firstFault c s = 0 := by
  simp [firstFault, h, hd, initMode]

/-- In modes 0 to 2 a TRAIN needs no PREDICT before it (R235 is of mode 3 only). -/
theorem firstFault_train {c : Cmd} {s : State} {pc : Pc} {o : Bool} (h : s.status = .ready)
    (hd : decode c = .ok (.train pc o)) (hm : ∀ p, s.m ≠ .perceptron p) : firstFault c s = 0 := by
  cases hsm : s.m with
  | absent | static | gshare g | tournament t => simp [firstFault, h, hd, initMode, hsm]
  | perceptron p => exact absurd hsm (hm p)

/-- In mode 3 the pairing check decides (R182, R235). -/
theorem firstFault_train_perceptron {c : Cmd} {s : State} {pc : Pc} {o : Bool} {p : Perceptron} (h : s.status = .ready)
    (hd : decode c = .ok (.train pc o)) (hm : s.m = .perceptron p) :
    firstFault c s = if percPaired pc p = true then 0 else 5 := by
  have hpaired : (p.scrValid = false ∨ p.scrPc ≠ pc) ↔ ¬ percPaired pc p = true := by
    simp [percPaired, imp_iff_not_or]
  simp only [firstFault, h, hd, initMode, hm, hpaired, reduceCtorEq, if_false, ite_not]

theorem FaultCause.code_ne_zero (f : FaultCause) : f.code ≠ 0 := by
  cases f <;> decide

/-- The fault that a command raises is the first check that applies (R238). -/
theorem Raises.firstFault_eq {c : Cmd} {s : State} {i : Instr} {f : FaultCause} (h : Raises s i f)
    (hd : decode c = .ok i) : firstFault c s = f.code := by
  cases h with
  | reinit m hs => exact firstFault_init_ready hs hd
  | configInvalid m hs hc => exact firstFault_init_rejected hs hd hc
  | notInitialized _ hs hi => exact firstFault_uninit hs hd hi
  | orderViolation pc o p hs hm hp => simp [firstFault_train_perceptron hs hd hm, hp, FaultCause.code]

/-- No check applies to an accepted PREDICT or TRAIN (R238). -/
theorem Moves.firstFault_eq {c : Cmd} {s : State} {i : Instr} {b : Bool} {m' : Predictor}
    (h : Moves s.cfg i s.m b m') (hs : s.status = .ready) (hd : decode c = .ok i) : firstFault c s = 0 := by
  generalize hm : s.m = m at h
  cases h with
  | staticPredict | gsharePredict | tournPredict | percPredict => exact firstFault_predict hs hd
  | staticTrain | gshareTrain | tournTrain => exact firstFault_train hs hd (by simp [hm])
  | percKeep _ _ p hp | percAdjust _ _ p _ hp => simp [firstFault_train_perceptron hs hd hm, hp]

/-- A FAULTED block with the invariant holds a code of R230, and none of them is 0. -/
theorem faultCode_ne_zero {s : State} (hinv : s.inv = true) (h : s.status = .faulted) : s.faultCode ≠ 0 := by
  obtain ⟨hlife, -, -⟩ := (State.inv_iff s).mp hinv
  intro hcode
  simp only [lifecycleOk, h, faultRecordOk, hcode] at hlife
  split at hlife <;> simp at hlife

/-! ### The prediction of an accepted PREDICT -/

/-- PRED of an accepted PREDICT is the prediction of the selected mode (R131, R151, R181, R214). -/
theorem Moves.prediction_eq {cfg : Config} {pc : Pc} {m m' : Predictor} {b : Bool}
    (h : Moves cfg (.predict pc) m b m') : m.prediction cfg pc = some b := by
  cases h with
  | staticPredict => rfl
  | gsharePredict _ g =>
    simp [Predictor.prediction, tabRead_of_lt (sh := phtShape cfg) (gshareIdx_lt cfg pc g.ghr)]
  | tournPredict _ t =>
    simp only [Predictor.prediction, tabRead_of_lt (sh := chooserShape cfg) (tournGidx_lt cfg t.ghr),
      tabRead_of_lt (sh := gphtShape cfg) (tournGidx_lt cfg t.ghr),
      tabRead_of_lt (sh := lphtShape cfg) (tournLidx_lt cfg _),
      tabRead_of_lt (sh := lhtShape cfg) (tournPcidx_lt cfg pc), Option.map_some]
    exact (apply_ite some _ _ _).symm
  | percPredict _ p row hrow => simp [Predictor.prediction, hrow]

/-- An accepted TRAIN answers PRED = 0 (R87). -/
theorem Moves.predict_of_pred {cfg : Config} {i : Instr} {m m' : Predictor} (h : Moves cfg i m true m') :
    ∃ pc, i = .predict pc := by
  generalize hb : true = b at h
  cases h with
  | staticPredict pc | gsharePredict pc | tournPredict pc | percPredict pc => exact ⟨pc, rfl⟩
  | staticTrain | gshareTrain | tournTrain | percKeep | percAdjust => cases hb

theorem initInstr_ne_predict (m : Mode) (pc : Pc) : initInstr m ≠ .predict pc := by
  cases m <;> nofun

/-- FAULT is the first check that applies, and PRED is 0 without an accepted PREDICT or TRAIN and otherwise what the
mode answers (R87). -/
theorem issue_response {c : Cmd} {s s' : State} (hinv : s.inv = true) (h : issue c s = .next s') :
    ∃ b, s'.response = some (responseWord b (firstFault c s)) ∧
      ((b = false ∧ ∀ pc, decode c = .ok (.predict pc) → firstFault c s ≠ 0) ∨
       (firstFault c s = 0 ∧ ∃ i m', decode c = .ok i ∧ Moves s.cfg i s.m b m')) := by
  obtain ⟨hs, rfl⟩ | ⟨hs, ⟨e, hd⟩, rfl⟩ | ⟨-, i, f, hd, hr, rfl⟩ | ⟨hs, m, hd, hc, rfl⟩ |
    ⟨hs, i, b, m', hd, hmv, rfl⟩ := issue_cases h
  · rw [firstFault_faulted hs]
    exact ⟨false, rfl, .inl ⟨rfl, fun _ _ => faultCode_ne_zero hinv hs⟩⟩
  · rw [firstFault_reserved hs hd]
    exact ⟨false, rfl, .inl ⟨rfl, fun _ _ => by decide⟩⟩
  · rw [hr.firstFault_eq hd]
    exact ⟨false, rfl, .inl ⟨rfl, fun _ _ => f.code_ne_zero⟩⟩
  · rw [firstFault_init_accepted hs hd hc]
    refine ⟨false, rfl, .inl ⟨rfl, fun pc hpc => ?_⟩⟩
    exact absurd (Except.ok.inj (hd.symm.trans hpc)) (initInstr_ne_predict m pc)
  · rw [hmv.firstFault_eq hs hd]
    exact ⟨b, rfl, .inr ⟨rfl, i, m', hd, hmv⟩⟩

/-- Settles O21: `issue_response`, with the prediction that an accepted PREDICT answers. -/
theorem responseFieldsOfEveryCommand : Obligations.ResponseFieldsOfEveryCommand := by
  intro c s s' hinv h
  obtain ⟨b, hresp, hpred⟩ := issue_response hinv h
  have hcode : (responseWord b (firstFault c s)).extractLsb' 1 3 = firstFault c s := Response.fault_responseWord _ _
  have hbit : (responseWord b (firstFault c s)).getLsbD 0 = b := Response.pred_responseWord _ _
  refine ⟨_, hresp, hcode, fun hs => hcode.trans (firstFault_faulted hs), ?_⟩
  rw [hbit]
  obtain ⟨rfl, hnone⟩ | ⟨h0, i, m', hd, hmv⟩ := hpred
  · exact ⟨fun pc hpc h0 => absurd h0 (hnone pc hpc), fun hb => by cases hb⟩
  · refine ⟨fun pc hpc _ => ?prediction, fun hb => ?predictOnly⟩
    case prediction =>
      obtain rfl := Except.ok.inj (hd.symm.trans hpc)
      exact hmv.prediction_eq
    case predictOnly =>
      subst hb
      obtain ⟨pc, rfl⟩ := hmv.predict_of_pred
      exact ⟨h0, pc, hd⟩

end Sys2Proof.Machine
end

section
/-!
The assembler's lines (R89, R90): the words of the lines with a pc, and a line that stands for no words.
-/

namespace Sys2Proof.Machine

theorem pcFits_eq_true {pc : Nat} (h : pc < 2 ^ 32) : pcFits pc = true := decide_eq_true h

theorem pcFits_eq_false {pc : Nat} (h : 2 ^ 32 ≤ pc) : pcFits pc = false := decide_eq_false (Nat.not_lt.mpr h)

section
variable {pc : Nat} (h : pc < 2 ^ 32)
include h

theorem words_predict : AsmLine.words (.predict pc) = some [encode (.predict (BitVec.ofNat 32 pc))] := by
  simp [AsmLine.words, AsmLine.wellFormed, pcFits_eq_true h]

theorem words_train (o : Bool) : AsmLine.words (.train pc o) = some [encode (.train (BitVec.ofNat 32 pc) o)] := by
  simp [AsmLine.words, AsmLine.wellFormed, pcFits_eq_true h]

theorem words_step (o : Bool) : AsmLine.words (.step pc o) =
    some [encode (.predict (BitVec.ofNat 32 pc)), encode (.train (BitVec.ofNat 32 pc) o)] := by
  simp [AsmLine.words, AsmLine.wellFormed, pcFits_eq_true h]

end

/-- Settles O5: the expansions, and `decode_encode` for the two words of `step`. -/
theorem pseudoInstructionsExpand : Obligations.PseudoInstructionsExpand :=
  ⟨rfl, fun _ o h => ⟨_, _, words_predict h, words_train h o, words_step h o, decode_encode _, decode_encode _⟩⟩

theorem words_eq_none {a : AsmLine} (h : a.wellFormed = false) : AsmLine.words a = none := by
  simp [AsmLine.words, h]

/-- One line that is not well formed rejects the whole text, wherever it stands (R89). -/
theorem assembleLines_eq_none (before after : List AsmLine) {a : AsmLine} (h : a.wellFormed = false) :
    assembleLines (before ++ a :: after) = none := by
  induction before with
  | nil => simp [assembleLines, words_eq_none h]
  | cons b bs ih => simp [assembleLines, ih]

/-- Settles O6: a line whose pc is too large is not well formed. -/
theorem assemblerRejectsLargePcs : Obligations.AssemblerRejectsLargePcs := fun before after _ _ h =>
  ⟨assembleLines_eq_none before after (pcFits_eq_false h), assembleLines_eq_none before after (pcFits_eq_false h),
    assembleLines_eq_none before after (pcFits_eq_false h)⟩

end Sys2Proof.Machine
end

section
/-!
The weights of the perceptron (R115, R184): every command keeps the part of the invariant about `M`, so no sequence
takes a weight out of its range; and a lane driven in one direction moves by one until it is at its bound.
-/

namespace Sys2Proof.Machine

/-! ### Sequences of commands -/

/-- What every accepted word keeps, every sequence of words keeps. -/
theorem issueAll_keeps {P : State → Prop} (hissue : ∀ {c s s'}, P s → issue c s = .next s' → P s')
    {cs : List Cmd} {s s' : State} (hs : P s) (h : issueAll cs s = .next s') : P s' := by
  induction cs generalizing s with
  | nil => exact next_inj h ▸ hs
  | cons c cs ih =>
    cases hc : issue c s with
    | next s₁ => exact ih (hissue hs hc) (by simpa only [issueAll, hc] using h)
    | fault r => simp [issueAll, hc] at h
    | refused r => simp [issueAll, hc] at h

/-- Every command keeps the part of the invariant about `M`: it keeps `M`, or is an accepted INIT, PREDICT or TRAIN. -/
theorem issue_predictorOk {c : Cmd} {s s' : State} (hs : predictorOk s.cfg s.m = true) (h : issue c s = .next s') :
    predictorOk s'.cfg s'.m = true := by
  obtain ⟨-, rfl⟩ | ⟨-, -, rfl⟩ | ⟨-, i, f, -, -, rfl⟩ | ⟨-, m, -, hc, rfl⟩ | ⟨-, i, b, m', -, hmv, rfl⟩ := issue_cases h
  · exact hs
  · exact hs
  · exact hs
  · exact initPredictor_ok s.cfg m hc
  · exact hmv.predictorOk hs

/-- Every row that can be read from a state with the invariant has its weights in [WMIN, WMAX]. -/
theorem readRow_bounded {cfg : Config} {p : Perceptron} {r : Nat} {row : WeightRow}
    (hp : predictorOk cfg (.perceptron p) = true) (h : readRow cfg p r = some row) : rowBounded cfg row = true := by
  obtain ⟨-, -, -, hrows, -, -⟩ := predictorOk_perceptron.mp hp
  obtain ⟨-, hrow, -⟩ := readRow_eq_some.mp h
  exact hrow ▸ (lookup_row hrows r).2

/-! ### A lane driven in one direction -/

theorem laneStep_up (cfg : Config) {x : Int} (h : wMin cfg ≤ x) :
    laneStep cfg x true = min (wMax cfg) (x + 1) := by
  simp only [laneStep, satw, sat, if_true]
  omega

theorem laneStep_down (cfg : Config) {x : Int} (h : x ≤ wMax cfg) :
    laneStep cfg x false = max (wMin cfg) (x - 1) := by
  have := weight_bounds cfg
  simp only [laneStep, satw, sat, Bool.false_eq_true, if_false]
  omega

theorem laneStep_up_iterate (cfg : Config) {x : Int} (hlo : wMin cfg ≤ x) (hhi : x ≤ wMax cfg) (n : Nat) :
    (fun y => laneStep cfg y true)^[n] x = min (wMax cfg) (x + n) := by
  have := weight_bounds cfg
  induction n with
  | zero => simp [hhi]
  | succ n ih =>
    rw [Function.iterate_succ_apply', ih, laneStep_up cfg (by omega)]
    push_cast
    omega

theorem laneStep_down_iterate (cfg : Config) {x : Int} (hlo : wMin cfg ≤ x) (hhi : x ≤ wMax cfg) (n : Nat) :
    (fun y => laneStep cfg y false)^[n] x = max (wMin cfg) (x - n) := by
  have := weight_bounds cfg
  induction n with
  | zero => simp [hlo]
  | succ n ih =>
    rw [Function.iterate_succ_apply', ih, laneStep_down cfg (by omega)]
    push_cast
    omega

/-- From one bound to the other it is at most 2^P_WB steps (R14). -/
theorem wMax_sub_wMin_le (cfg : Config) : wMax cfg - wMin cfg ≤ (2 ^ cfg.pWb : Nat) := by
  simp only [wMin, wMax]
  cases cfg.pWb with
  | zero => decide
  | succ k =>
    push_cast [Nat.add_sub_cancel, pow_succ]
    omega

/-- Settles O54: the invariant of `M` bounds every row that can be read, and 2^P_WB steps are enough to cross the
range. -/
theorem perceptronWeightsStayBounded : Obligations.PerceptronWeightsStayBounded := by
  refine ⟨fun s s' p' cs r row hinv hrun hm hrow => ?bounded, fun cfg x up n hlo hhi hn => ?driven⟩
  case bounded =>
    obtain ⟨-, -, hok⟩ := (State.inv_iff s).mp hinv
    have hok' := issueAll_keeps (P := fun t => predictorOk t.cfg t.m = true) issue_predictorOk hok hrun
    rw [hm] at hok'
    exact rowBounded_iff.mp (readRow_bounded hok' hrow)
  case driven =>
    have hwidth := wMax_sub_wMin_le cfg
    cases up with
    | true =>
      rw [laneStep_up_iterate cfg hlo hhi, if_pos rfl]
      omega
    | false =>
      rw [laneStep_down_iterate cfg hlo hhi, if_neg (by decide)]
      omega

end Sys2Proof.Machine
end

section
/-!
The saturating counter (R100 to R103) and the chooser (R112, R113).
-/

namespace Sys2Proof.Machine

/-- Settles O36: the table has eight entries, each evaluated. -/
theorem counterTransitionTable : Obligations.CounterTransitionTable := by
  unfold Obligations.CounterTransitionTable
  decide

/-- The state in which a counter reads `o` most firmly (R103). -/
def strongCounter (o : Bool) : Counter := if o then 3 else 0

@[simp] theorem ctrRead_strongCounter (o : Bool) : ctrRead (strongCounter o) = o := by
  cases o <;> rfl

theorem ctrBump_strongCounter (o : Bool) : ctrBump (strongCounter o) o = strongCounter o := by
  cases o <;> decide

/-- From the weakest state for `o` to the strong one there are three transitions (R102). -/
theorem ctrBump_three (c : Counter) (o : Bool) : ctrBump (ctrBump (ctrBump c o) o) o = strongCounter o := by
  revert c o
  decide

theorem ctrRead_ctrBump_two (c : Counter) (o : Bool) : ctrRead (ctrBump (ctrBump c o) o) = o := by
  revert c o
  decide

/-- The strong state is a fixed point, so every bump after the third leaves it. -/
theorem ctrBump_iterate (c : Counter) (o : Bool) {n : Nat} (h : 3 ≤ n) :
    (fun x => ctrBump x o)^[n] c = strongCounter o := by
  obtain ⟨k, rfl⟩ := Nat.exists_eq_add_of_le' h
  rw [Function.iterate_add_apply]
  exact (congrArg _ (ctrBump_three c o)).trans (Function.iterate_fixed (ctrBump_strongCounter o) k)

/-- Settles O37: three bumps reach the strong state, which reads `o`, so the second clause is left with exactly two
bumps. -/
theorem counterSaturatesAndStays : Obligations.CounterSaturatesAndStays := by
  intro c o
  refine ⟨fun n hn => ctrBump_iterate c o hn, fun n hn => ?reading, ?weak⟩
  case reading =>
    obtain rfl | hn := Nat.eq_or_lt_of_le hn
    · exact ctrRead_ctrBump_two c o
    · rw [ctrBump_iterate c o hn, ctrRead_strongCounter]
  case weak =>
    rintro rfl
    cases o <;> decide

theorem chooserSelect_local {ch : Counter} (h : ch.toNat ≤ 1) (lp gp : Bool) : chooserSelect ch lp gp = lp :=
  if_pos h

theorem chooserSelect_global {ch : Counter} (h : 2 ≤ ch.toNat) (lp gp : Bool) : chooserSelect ch lp gp = gp :=
  if_neg (by omega)

theorem chooserNext_global_right (ch : Counter) {lp gp o : Bool} (hg : gp = o) (hl : lp ≠ o) :
    (chooserNext ch lp gp o).toNat = min 3 (ch.toNat + 1) := by
  simp only [chooserNext, hg, hl, ne_eq, not_true_eq_false, not_false_eq_true, true_and, false_and, if_false]
  revert ch
  decide

theorem chooserNext_local_right (ch : Counter) {lp gp o : Bool} (hg : gp ≠ o) (hl : lp = o) :
    (chooserNext ch lp gp o).toNat = ch.toNat - 1 := by
  simp only [chooserNext, hg, hl, ne_eq, not_true_eq_false, not_false_eq_true, true_and, false_and, if_false]
  revert ch
  decide

theorem chooserNext_of_agree (ch : Counter) (p o : Bool) : chooserNext ch p p o = ch := by
  have hup : ¬ (p = o ∧ p ≠ o ∧ ch ≠ 3) := fun ⟨h, hn, _⟩ => hn h
  have hdown : ¬ (p ≠ o ∧ p = o ∧ ch ≠ 0) := fun ⟨hn, h, _⟩ => hn h
  rw [chooserNext, if_neg hup, if_neg hdown]

/-- Settles O44: one lemma for each side of the selection and each move. -/
theorem chooserSelectsAndMoves : Obligations.ChooserSelectsAndMoves := by
  intro ch lp gp o
  refine ⟨fun h => chooserSelect_local h lp gp, fun h => chooserSelect_global h lp gp,
    fun ⟨hg, hl⟩ => chooserNext_global_right ch hg hl, fun ⟨hg, hl⟩ => chooserNext_local_right ch hg hl, ?agree⟩
  rintro rfl
  exact chooserNext_of_agree ch gp o

end Sys2Proof.Machine
end

section
/-!
The history shifters (R104, R105): the bits of the shifted history, and the perceptron's window read as a number.
-/

namespace Sys2Proof.Machine

theorem histShift_testBit_zero (h : Nat) (o : Bool) {w : Nat} (hw : 1 ≤ w) : (histShift h o w).testBit 0 = o := by
  rw [histShift_eq, Nat.testBit_mod_two_pow, decide_eq_true (show 0 < w from hw), Bool.true_and, Nat.testBit_zero]
  cases o <;> simp [Nat.add_mod]

theorem histShift_testBit_succ (h : Nat) (o : Bool) (w k : Nat) :
    (histShift h o w).testBit (k + 1) = (decide (k + 1 < w) && h.testBit k) := by
  have hhalf : (2 * h + o.toNat) / 2 = h := by
    have := o.toNat_lt
    omega
  rw [histShift_eq, Nat.testBit_mod_two_pow, Nat.testBit_succ, hhalf]

/-- Settles O38: the bits of the shifter, one lemma for bit 0 and one for the older bits. -/
theorem historyShiftsInAtBitZero : Obligations.HistoryShiftsInAtBitZero := by
  intro h o w hw _
  refine ⟨histShift_lt h o w, histShift_testBit_zero h o hw, fun k hk => ?_⟩
  rw [histShift_testBit_succ, decide_eq_true hk, Bool.true_and]

/-- The window keeps its length, so it takes that many of the outcome and the old entries (R105). -/
theorem windowShift_eq_take (hist : List Bool) (o : Bool) : windowShift hist o = (o :: hist).take hist.length :=
  List.dropLast_eq_take

/-- The most recent entries are the low bits of the number. -/
theorem windowNumber_take (hist : List Bool) (n : Nat) : windowNumber (hist.take n) = windowNumber hist % 2 ^ n := by
  induction hist generalizing n with
  | nil => simp [windowNumber]
  | cons b hist ih =>
    cases n with
    | zero => simp [windowNumber, Nat.mod_one]
    | succ n =>
      have hb := b.toNat_lt
      rw [List.take_succ_cons, windowNumber, windowNumber, ih, pow_succ', Nat.mod_mul]
      have hmod : (b.toNat + 2 * windowNumber hist) % 2 = b.toNat := by omega
      have hdiv : (b.toNat + 2 * windowNumber hist) / 2 = windowNumber hist := by omega
      rw [hmod, hdiv]

theorem windowNumber_windowShift (hist : List Bool) (o : Bool) :
    windowNumber (windowShift hist o) = histShift (windowNumber hist) o hist.length := by
  rw [windowShift_eq_take, windowNumber_take, histShift_eq, windowNumber, Nat.add_comm]

/-- Settles O39: the shifted window takes the outcome and the older entries, and its number the low bits. -/
theorem windowShiftIsHistoryShift : Obligations.WindowShiftIsHistoryShift := by
  intro hist o hlen
  refine ⟨windowShift_length hist o, ?recent, fun j hj => ?older, windowNumber_windowShift hist o⟩
  case recent => rw [windowShift_eq_take, List.getElem?_take_of_lt hlen, List.getElem?_cons_zero]
  case older => rw [windowShift_eq_take, List.getElem?_take_of_lt hj, List.getElem?_cons_succ]

end Sys2Proof.Machine
end

section
/-!
The index hashes (R106 to R110): the bits of the gshare index, the low bits that the tournament uses, and the
perceptron's row with and without the reduction modulo 2^32.
-/

namespace Sys2Proof.Machine

theorem gshareIdx_testBit (cfg : Config) (pc : Pc) (ghr k : Nat) :
    (gshareIdx cfg pc ghr).testBit k = (decide (k < cfg.wG) && (pc.toNat.testBit k ^^ ghr.testBit k)) := by
  rw [gshareIdx_eq, Nat.testBit_xor, Nat.testBit_mod_two_pow, Nat.testBit_mod_two_pow, ← Bool.and_xor_distrib_left]

theorem gshareIdx_zero (cfg : Config) (pc : Pc) : gshareIdx cfg pc 0 = pc.toNat % 2 ^ cfg.wG := by
  rw [gshareIdx_eq, Nat.zero_mod, Nat.xor_zero]

/-- Settles O40: every clause is about the two remainders of `gshareIdx_eq`. -/
theorem gshareIndexFoldsLowBits : Obligations.GshareIndexFoldsLowBits := by
  intro cfg pc ghr
  refine ⟨gshareIdx_testBit cfg pc ghr, gshareIdx_zero cfg pc, fun hw => ?wide, fun hghr => ?equal, fun pc' h => ?aliased⟩
  case wide => rw [gshareIdx_zero, hw, Nat.mod_eq_of_lt pc.isLt]
  case equal => rw [gshareIdx_eq, ← hghr, Nat.mod_mod, Nat.xor_self]
  case aliased => rw [gshareIdx_eq, gshareIdx_eq, h]

/-- Settles O42: masking is a remainder, which a number below the modulus does not change. -/
theorem tournamentIndicesAreLowBits : Obligations.TournamentIndicesAreLowBits := by
  intro cfg pc h
  refine ⟨tournGidx_eq cfg h, tournPcidx_eq cfg pc, tournLidx_eq cfg h, fun hlt => ?kept, fun pc' hpc => ?aliased⟩
  case kept => rw [tournLidx_eq, Nat.mod_eq_of_lt hlt]
  case aliased => rw [tournPcidx_eq, tournPcidx_eq, hpc]

theorem percIdx_wrap {cfg : Config} (h : cfg.pHashWrap = true) (pc : Pc) :
    percIdx cfg pc = (pc.toNat * cfg.pMul) % 2 ^ 32 % cfg.pN := by
  simp [percIdx, h]

theorem percIdx_noWrap {cfg : Config} (h : cfg.pHashWrap = false) (pc : Pc) :
    percIdx cfg pc = (pc.toNat * cfg.pMul) % cfg.pN := by
  simp [percIdx, h]

theorem percIdx_zero (cfg : Config) : percIdx cfg 0 = 0 := by
  simp [percIdx]

/-- The two settings of P_HASH_WRAP agree as long as the product has 32 bits (R110). -/
theorem percIdx_wrap_eq_noWrap {cfg : Config} {pc : Pc} (h : pc.toNat * cfg.pMul < 2 ^ 32) :
    percIdx { cfg with pHashWrap := true } pc = percIdx { cfg with pHashWrap := false } pc := by
  rw [percIdx_wrap rfl, percIdx_noWrap rfl, Nat.mod_eq_of_lt h]

/-- Settles O43: the two remainders of `percIdx_wrap` and `percIdx_noWrap`; 0x0D79435F is the first pc whose product
with 19 has more than 32 bits. -/
theorem perceptronHashWithAndWithoutWrap : Obligations.PerceptronHashWithAndWithoutWrap := by
  intro cfg pc
  refine ⟨fun h => percIdx_wrap h pc, fun h => percIdx_noWrap h pc, percIdx_zero cfg, fun h pc' hpc => ?aliased,
    fun hmul hlt => percIdx_wrap_eq_noWrap ?small, fun hmul hn => ⟨?wrap, ?noWrap⟩⟩
  case aliased => rw [percIdx_noWrap h, percIdx_noWrap h, hpc, Nat.add_mul, Nat.add_mul_mod_self_left]
  case small =>
    rw [hmul]
    omega
  case wrap =>
    rw [percIdx_wrap rfl, hmul, hn]
    rfl
  case noWrap =>
    rw [percIdx_noWrap rfl, hmul, hn]
    rfl

end Sys2Proof.Machine
end

section
/-!
The perceptron's arithmetic (R114 to R116): the sum and its bound, the lanes of an update, and the flags.
-/

namespace Sys2Proof.Machine

/-! ### The sum -/

/-- The sum adds to its start the weights with the sign of their history bits (R114). -/
theorem percSum_eq (ws : WeightRow) (hist : List Bool) (y : Int) :
    percSum ws hist y = y + (List.zipWith (fun wt h => if h then wt else -wt) ws hist).sum := by
  induction ws generalizing hist y with
  | nil => simp [percSum]
  | cons wt ws ih =>
    cases hist with
    | nil => simp [percSum]
    | cons h hist =>
      rw [percSum, ih, List.zipWith_cons_cons, List.sum_cons]
      cases h with
      | false =>
        simp only [Bool.false_eq_true, if_false]
        ring
      | true => exact add_assoc y wt _

/-- A weight in [WMIN, WMAX] has magnitude at most 2^(P_WB-1) (R14). -/
theorem natAbs_weight_le {cfg : Config} {x : Int} (h : wMin cfg ≤ x ∧ x ≤ wMax cfg) : x.natAbs ≤ 2 ^ (cfg.pWb - 1) := by
  have hcast : ((2 ^ (cfg.pWb - 1) : Nat) : Int) = 2 ^ (cfg.pWb - 1) := by push_cast; rfl
  simp only [wMin, wMax, ← hcast] at h
  omega

/-- Each history position adds at most one weight's magnitude to the sum (R114). -/
theorem percSum_natAbs_le {cfg : Config} {ws : WeightRow} (hws : rowBounded cfg ws = true) (hist : List Bool) (y : Int) :
    (percSum ws hist y).natAbs ≤ y.natAbs + hist.length * 2 ^ (cfg.pWb - 1) := by
  induction ws generalizing hist y with
  | nil => simp [percSum]
  | cons wt ws ih =>
    cases hist with
    | nil => simp [percSum]
    | cons h hist =>
      obtain ⟨hwt, hws⟩ := rowBounded_cons.mp hws
      have hweight := natAbs_weight_le hwt
      have hrest := ih hws hist (if h then y + wt else y - wt)
      have hstep : (if h then y + wt else y - wt).natAbs ≤ y.natAbs + wt.natAbs := by
        split <;> omega
      rw [percSum, List.length_cons, Nat.succ_mul]
      omega

/-- Settles O47: the sum starts from the bias weight, and each of the P_H + 1 weights adds at most 2^(P_WB-1). -/
theorem perceptronSumIsExactAndBounded : Obligations.PerceptronSumIsExactAndBounded := by
  intro cfg bias ws hist _
  refine ⟨percSum_eq ws hist bias, fun hrow => ?_⟩
  obtain ⟨hbias, hws⟩ := rowBounded_cons.mp hrow
  calc (percOut (bias :: ws) hist).natAbs
      ≤ bias.natAbs + hist.length * 2 ^ (cfg.pWb - 1) := percSum_natAbs_le hws hist bias
    _ ≤ 2 ^ (cfg.pWb - 1) + hist.length * 2 ^ (cfg.pWb - 1) := Nat.add_le_add_right (natAbs_weight_le hbias) _
    _ = (hist.length + 1) * 2 ^ (cfg.pWb - 1) := by rw [Nat.succ_mul, Nat.add_comm]

/-! ### The lanes -/

/-- Each lane uses its own weight and history bit alone (R115). -/
theorem percLanes_getElem? {cfg : Config} {o h : Bool} {ws : WeightRow} {hist : List Bool} {i : Nat} {x : Int}
    (hx : ws[i]? = some x) (hh : hist[i]? = some h) :
    (percLanes cfg o ws hist)[i]? = some (laneStep cfg x (o == h)) := by
  induction ws generalizing hist i with
  | nil => cases hx
  | cons wt ws ih =>
    cases hist with
    | nil => cases hh
    | cons b hist =>
      cases i with
      | zero =>
        cases hx
        cases hh
        rfl
      | succ i => exact ih hx hh

/-- Settles O48: the bias lane by definition, the others by `percLanes_getElem?`. -/
theorem perceptronUpdateMovesEachLane : Obligations.PerceptronUpdateMovesEachLane := by
  intro cfg row hist o hlen
  obtain _ | ⟨bias, ws⟩ := row
  · cases hlen
  refine ⟨percUpdate_length cfg _ hist o, fun b hb => ?bias, fun i x h hx hh => ?lane⟩
  case bias =>
    cases hb
    rfl
  case lane =>
    rw [percUpdate, List.getElem?_cons_succ, percLanes_getElem? (List.getElem?_cons_succ ▸ hx) hh]
    simp only [laneStep, satw, beq_iff_eq]

/-! ### The flags -/

theorem percPred_eq_true_iff {y : Int} : percPred y = true ↔ 0 ≤ y := decide_eq_true_iff

theorem percNeeds_eq_true_iff {theta y : Int} : percNeeds theta y = true ↔ -theta < y ∧ y < theta := decide_eq_true_iff

/-- Settles O49: the two flags as comparisons of integers; the rest is arithmetic at the edges. -/
theorem perceptronFlagsAreStrict : Obligations.PerceptronFlagsAreStrict := by
  intro theta y
  refine ⟨percPred_eq_true_iff, percNeeds_eq_true_iff, rfl, ?upper, ?lower, fun htheta => ⟨?inside, ?negative⟩⟩
  case upper =>
    rw [Bool.eq_false_iff, ne_eq, percNeeds_eq_true_iff]
    omega
  case lower =>
    rw [Bool.eq_false_iff, ne_eq, percNeeds_eq_true_iff]
    omega
  case inside =>
    rw [percNeeds_eq_true_iff]
    omega
  case negative =>
    rw [Bool.eq_false_iff, ne_eq, percPred_eq_true_iff]
    omega

end Sys2Proof.Machine
end

section
/-!
Gshare mode, command by command (R130 to R132): INIT's table, the counter that PREDICT reads, and what TRAIN writes.
-/

namespace Sys2Proof.Machine

/-- An accepted command's response, written as the word of its PRED (R87). -/
theorem responseWord_accepted (b : Bool) : responseWord b 0 = if b then 0b0001#4 else 0b0000#4 := by
  cases b <;> rfl

/-- The counter that a PREDICT or TRAIN of `pc` uses: the one at the hashed index (R106). -/
def Gshare.counter (cfg : Config) (pc : Pc) (g : Gshare) : Counter := g.pht.lookup 1 (gshareIdx cfg pc g.ghr)

/-- The gshare state after R132's writes. -/
def Gshare.after (cfg : Config) (pc : Pc) (o : Bool) (g : Gshare) : Gshare :=
  { ghr := histShift g.ghr o cfg.wG,
    pht := g.pht.store 1 (gshareIdx cfg pc g.ghr) (ctrBump (g.counter cfg pc) o) }

@[simp] theorem Gshare.after_ghr (cfg : Config) (pc : Pc) (o : Bool) (g : Gshare) :
    (g.after cfg pc o).ghr = histShift g.ghr o cfg.wG := rfl

/-- The counter stands in the PHT, whose index is always in range (R62). -/
theorem Gshare.tabRead_counter (cfg : Config) (pc : Pc) (g : Gshare) :
    tabRead (phtShape cfg) g.pht (gshareIdx cfg pc g.ghr) = some (g.counter cfg pc) :=
  tabRead_of_lt (sh := phtShape cfg) (gshareIdx_lt cfg pc g.ghr)

section
variable {s : State} {g : Gshare} (hs : s.status = .ready) (hm : s.m = .gshare g)
include hs hm

theorem exec_predict_gshare (pc : Pc) :
    exec (.predict pc) s = .next (s.accept (ctrRead (g.counter s.cfg pc))) := by
  obtain ⟨-, -, hgshare, -, -⟩ := exec_predict_ready hs pc
  exact (hgshare g hm).trans (gsharePredict_eq pc g s)

theorem exec_train_gshare (pc : Pc) (o : Bool) :
    exec (.train pc o) s = .next (State.accept false { s with m := .gshare (g.after s.cfg pc o) }) := by
  obtain ⟨-, -, hgshare, -, -⟩ := exec_train_ready hs pc o
  exact (hgshare g hm).trans (gshareTrain_eq pc o g s)

end

/-- The configuration check of gshare mode contains the range of W_g (R217). -/
theorem wG_range_of_cfgOk_gshare {cfg : Config} (h : cfgOk cfg .gshare = true) : 1 ≤ cfg.wG ∧ cfg.wG ≤ 32 := by
  simp only [cfgOk, widthOk, Bool.and_eq_true, decide_eq_true_eq] at h
  exact h.1

/-- Settles O25: INIT leaves the empty list, which is canonical and reads as WeaklyNotTaken in range. -/
theorem initGshareBuildsItsTables : Obligations.InitGshareBuildsItsTables := by
  intro s hs
  refine ⟨fun hok => ⟨{ ghr := 0, pht := [] }, ?accepted, rfl, Table.wf_nil _, fun i => rfl⟩, fun hno => ?rejected,
    fun hrange => ?outside⟩
  case accepted => exact (exec_initInstr .gshare s).trans (initAs_accepted hs hok)
  case rejected => exact (exec_initInstr .gshare s).trans (initAs_rejected hs hno)
  case outside => exact Bool.eq_false_iff.mpr fun hok => hrange (wG_range_of_cfgOk_gshare hok)

/-- Settles O29: `exec_predict_gshare`, with the index as the XOR of two remainders. -/
theorem gsharePredictReadsHashedCounter : Obligations.GsharePredictReadsHashedCounter := by
  intro s g pc hs hm
  refine ⟨g.counter s.cfg pc, ?counter, ?response⟩
  case counter => rw [← gshareIdx_eq, Gshare.tabRead_counter]
  case response =>
    rw [exec_predict_gshare hs hm, State.accept, responseWord_accepted]
    simp only [ctrRead, decide_eq_true_eq]

/-- Settles O30: `exec_train_gshare`; the PHT is canonical, so the written counter reads back (R21). -/
theorem gshareTrainUpdatesOneCounter : Obligations.GshareTrainUpdatesOneCounter := by
  intro s g pc o hinv hs hm
  obtain ⟨-, -, hok⟩ := (State.inv_iff s).mp hinv
  obtain ⟨-, -, hwf⟩ := predictorOk_gshare.mp (hm ▸ hok)
  exact ⟨g.counter s.cfg pc, g.after s.cfg pc o, g.tabRead_counter s.cfg pc, exec_train_gshare hs hm pc o,
    histShift_eq _ _ _, tabRead_store_same (sh := phtShape s.cfg) hwf (gshareIdx_lt _ _ _),
    fun j hj => tabRead_store_ne (sh := phtShape s.cfg) hj⟩

end Sys2Proof.Machine
end

section
/-!
Gshare determinism (R133): two blocks that agree on W_g, the gshare state and the fault record answer every word
alike, and agree afterwards.
-/

namespace Sys2Proof.Machine

/-- Blocks that any word keeps in step answer every sequence alike and end in step. -/
theorem issueAll_in_step {R : State → State → Prop}
    (hissue : ∀ {s t} c, R s t → ∃ s' t', issue c s = .next s' ∧ issue c t = .next t' ∧
      s'.response = t'.response ∧ R s' t')
    (cs : List Cmd) {s t : State} (h : R s t) :
    responses cs s = responses cs t ∧ ∃ s' t', issueAll cs s = .next s' ∧ issueAll cs t = .next t' ∧ R s' t' := by
  induction cs generalizing s t with
  | nil => exact ⟨rfl, s, t, rfl, rfl, h⟩
  | cons c cs ih =>
    obtain ⟨s', t', hs, ht, hresp, h'⟩ := hissue c h
    simpa only [responses, issueAll, hs, ht, hresp, List.cons.injEq, true_and] using ih h'

/-- Two gshare blocks that no sequence of words tells apart: one W_g, one gshare state, both READY, or both FAULTED
with one code. -/
structure GshareAlike (s t : State) : Prop where
  wG : s.cfg.wG = t.cfg.wG
  m : ∃ g, s.m = .gshare g ∧ t.m = .gshare g
  status : (s.status = .ready ∧ t.status = .ready) ∨
    (s.status = .faulted ∧ t.status = .faulted ∧ s.faultCode = t.faultCode)

theorem GshareAlike.m_eq {s t : State} (h : GshareAlike s t) : s.m = t.m := by
  obtain ⟨g, hs, ht⟩ := h.m
  rw [hs, ht]

theorem GshareAlike.status_eq {s t : State} (h : GshareAlike s t) : s.status = t.status := by
  obtain ⟨hs, ht⟩ | ⟨hs, ht, -⟩ := h.status
  all_goals rw [hs, ht]

theorem GshareAlike.raise {s t : State} (h : GshareAlike s t) (f : FaultCause) (c : Cmd) :
    GshareAlike (s.raise f c) (t.raise f c) :=
  ⟨h.wG, h.m, .inr ⟨rfl, rfl, rfl⟩⟩

/-- W_g is all that the gshare index takes from the configuration (R106). -/
theorem gshareIdx_congr {cfg cfg' : Config} (h : cfg.wG = cfg'.wG) (pc : Pc) (ghr : Nat) :
    gshareIdx cfg pc ghr = gshareIdx cfg' pc ghr := by
  rw [gshareIdx, gshareIdx, h]

theorem Gshare.counter_congr {cfg cfg' : Config} (h : cfg.wG = cfg'.wG) (pc : Pc) (g : Gshare) :
    g.counter cfg pc = g.counter cfg' pc := by
  rw [Gshare.counter, Gshare.counter, gshareIdx_congr h]

theorem Gshare.after_congr {cfg cfg' : Config} (h : cfg.wG = cfg'.wG) (pc : Pc) (o : Bool) (g : Gshare) :
    g.after cfg pc o = g.after cfg' pc o := by
  rw [Gshare.after, Gshare.after, gshareIdx_congr h, Gshare.counter_congr h, h]

/-- A command keeps two READY blocks alike: a second INIT faults in both, and PREDICT and TRAIN read only what the
blocks share (R131, R132, R234). -/
theorem GshareAlike.exec_alike {s t : State} (h : GshareAlike s t) (hs : s.status = .ready) (ht : t.status = .ready)
    (i : Instr) : ∃ s' t', exec i s = .next s' ∧ exec i t = .next t' ∧ s'.response = t'.response ∧
      GshareAlike s' t' := by
  obtain ⟨g, hsm, htm⟩ := h.m
  obtain ⟨m, rfl⟩ | ⟨pc, rfl⟩ | ⟨pc, o, rfl⟩ := instr_cases i
  · rw [exec_initInstr, exec_initInstr, initAs_ready hs, initAs_ready ht]
    exact ⟨_, _, rfl, rfl, rfl, h.raise _ _⟩
  · rw [exec_predict_gshare hs hsm, exec_predict_gshare ht htm, Gshare.counter_congr h.wG]
    exact ⟨_, _, rfl, rfl, rfl, h.wG, h.m, h.status⟩
  · rw [exec_train_gshare hs hsm, exec_train_gshare ht htm, Gshare.after_congr h.wG]
    exact ⟨_, _, rfl, rfl, rfl, h.wG, ⟨_, rfl, rfl⟩, h.status⟩

/-- Every word keeps two blocks alike and answers both alike (R210). -/
theorem GshareAlike.issue_alike {s t : State} (c : Cmd) (h : GshareAlike s t) :
    ∃ s' t', issue c s = .next s' ∧ issue c t = .next t' ∧ s'.response = t'.response ∧ GshareAlike s' t' := by
  obtain ⟨hs, ht⟩ | ⟨hs, ht, hcode⟩ := h.status
  · cases hd : decode c with
    | error e =>
      exact ⟨_, _, issue_reserved hd (by simp [hs]), issue_reserved hd (by simp [ht]), rfl, h.raise _ _⟩
    | ok i =>
      rw [issue_decoded hd, issue_decoded hd]
      exact h.exec_alike hs ht i
  · refine ⟨_, _, issue_faulted hs c, issue_faulted ht c, ?_, h.wG, h.m, h.status⟩
    rw [State.ignore_response, State.ignore_response, hcode]

/-- Settles O51: `GshareAlike` holds at the start, and every word keeps it. -/
theorem gshareRunsAreDeterminedByTheSequence : Obligations.GshareRunsAreDeterminedByTheSequence := by
  intro s₁ s₂ g cs hs₁ hs₂ hm₁ hm₂ hw
  have hstart : GshareAlike s₁ s₂ := ⟨hw, ⟨g, hm₁, hm₂⟩, .inl ⟨hs₁, hs₂⟩⟩
  obtain ⟨hresp, t₁, t₂, ht₁, ht₂, hend⟩ := issueAll_in_step GshareAlike.issue_alike cs hstart
  exact ⟨hresp, t₁, t₂, ht₁, ht₂, hend.m_eq, hend.status_eq⟩

end Sys2Proof.Machine
end

section
/-!
Gshare convergence (R134): a constantly trained branch drives the history to a fixed point, and from then on one
counter toward the outcome.
-/

namespace Sys2Proof.Machine

/-! ### The fixed point of the history -/

/-- The history that TRAINs of `o` alone lead to: all ones or all zeros (R134). -/
def fixedHistory (o : Bool) (w : Nat) : Nat := if o then 2 ^ w - 1 else 0

theorem fixedHistory_lt (o : Bool) (w : Nat) : fixedHistory o w < 2 ^ w := by
  have := Nat.two_pow_pos w
  cases o <;> simp [fixedHistory]

/-- The fixed point is the one history that the outcome completes to a multiple of 2^w. -/
theorem eq_fixedHistory_iff {h w : Nat} (o : Bool) (hh : h < 2 ^ w) : h = fixedHistory o w ↔ 2 ^ w ∣ h + o.toNat := by
  cases o with
  | false => exact ⟨fun h0 => h0 ▸ dvd_zero _, fun hd => Nat.eq_zero_of_dvd_of_lt hd hh⟩
  | true =>
    simp only [fixedHistory, if_true, Bool.toNat_true]
    refine ⟨fun hf => ⟨1, by omega⟩, fun hd => ?_⟩
    have := Nat.le_of_dvd (Nat.succ_pos h) hd
    omega

/-- Shifting `o` into a history doubles its sum with `o`, modulo 2^w (R104). -/
theorem histShift_add_modEq (h : Nat) (o : Bool) (w : Nat) :
    histShift h o w + o.toNat ≡ 2 * (h + o.toNat) [MOD 2 ^ w] := by
  have hdouble : 2 * (h + o.toNat) = 2 * h + o.toNat + o.toNat := by ring
  rw [hdouble, histShift_eq]
  exact (Nat.mod_modEq _ _).add_right _

theorem histShift_fixedHistory (o : Bool) (w : Nat) : histShift (fixedHistory o w) o w = fixedHistory o w := by
  rw [eq_fixedHistory_iff o (histShift_lt _ _ _), (histShift_add_modEq _ _ _).dvd_iff dvd_rfl]
  exact ((eq_fixedHistory_iff o (fixedHistory_lt o w)).mp rfl).mul_left 2

/-! ### Repeated TRAINs of one branch -/

/-- One bump takes a weak counter to a state that reads the outcome (R102). -/
theorem ctrRead_ctrBump_of_weak {c : Counter} (hc : c = 1 ∨ c = 2) (o : Bool) : ctrRead (ctrBump c o) = o := by
  revert c o
  decide

/-- With one pc, different histories select different counters (R106). -/
theorem gshareIdx_inj {cfg : Config} {pc : Pc} {h h' : Nat} (hh : h < 2 ^ cfg.wG) (hh' : h' < 2 ^ cfg.wG) :
    gshareIdx cfg pc h = gshareIdx cfg pc h' ↔ h = h' := by
  rw [gshareIdx_eq, gshareIdx_eq, Nat.mod_eq_of_lt hh, Nat.mod_eq_of_lt hh', Nat.xor_right_inj]

section
variable {cfg : Config} {pc : Pc} {o : Bool} {g : Gshare}

/-- TRAIN at the fixed point uses the same counter again, and bumps it (R132). -/
theorem Gshare.counter_after_of_fixed (hwf : g.pht.wf (phtShape cfg) = true) (hfix : g.ghr = fixedHistory o cfg.wG) :
    (g.after cfg pc o).counter cfg pc = ctrBump (g.counter cfg pc) o := by
  have hghr : (g.after cfg pc o).ghr = g.ghr := by rw [after_ghr, hfix, histShift_fixedHistory]
  rw [counter, hghr]
  exact Table.lookup_store_same hwf

/-- TRAIN with another history leaves the counter of the history `h` alone (R132). -/
theorem Gshare.lookup_after_of_ghr_ne {h : Nat} (hg : g.ghr < 2 ^ cfg.wG) (hh : h < 2 ^ cfg.wG) (hne : g.ghr ≠ h) :
    (g.after cfg pc o).pht.lookup 1 (gshareIdx cfg pc h) = g.pht.lookup 1 (gshareIdx cfg pc h) :=
  Table.lookup_store_ne g.pht fun heq => hne ((gshareIdx_inj hh hg).mp heq).symm

/-- `n` TRAINs double the sum of the history and `o` `n` times. -/
theorem Gshare.ghr_after_iterate_modEq (n : Nat) :
    ((Gshare.after cfg pc o)^[n] g).ghr + o.toNat ≡ 2 ^ n * (g.ghr + o.toNat) [MOD 2 ^ cfg.wG] := by
  induction n with
  | zero => simp [Nat.ModEq]
  | succ n ih =>
    rw [Function.iterate_succ_apply', pow_succ', mul_assoc]
    exact (histShift_add_modEq _ _ _).trans (ih.mul_left 2)

variable (hok : predictorOk cfg (.gshare g) = true)
include hok

theorem Gshare.after_iterate_ok (n : Nat) : predictorOk cfg (.gshare ((Gshare.after cfg pc o)^[n] g)) = true := by
  induction n with
  | zero => exact hok
  | succ n ih =>
    rw [Function.iterate_succ_apply']
    exact (Moves.gshareTrain pc o _).predictorOk ih

theorem Gshare.ghr_after_iterate_eq_fixed_iff (n : Nat) :
    ((Gshare.after cfg pc o)^[n] g).ghr = fixedHistory o cfg.wG ↔ 2 ^ cfg.wG ∣ 2 ^ n * (g.ghr + o.toNat) := by
  obtain ⟨-, hlt, -⟩ := predictorOk_gshare.mp (after_iterate_ok (pc := pc) (o := o) hok n)
  rw [eq_fixedHistory_iff o hlt, (ghr_after_iterate_modEq n).dvd_iff dvd_rfl]

/-- W_g TRAINs reach the fixed point from any history, and more TRAINs stay there (R134). -/
theorem Gshare.ghr_after_iterate_of_le {n : Nat} (hn : cfg.wG ≤ n) :
    ((Gshare.after cfg pc o)^[n] g).ghr = fixedHistory o cfg.wG :=
  (ghr_after_iterate_eq_fixed_iff hok n).mpr ((pow_dvd_pow 2 hn).mul_right _)

/-- At the fixed point every further TRAIN bumps the one counter (R134). -/
theorem Gshare.counter_after_iterate_of_fixed (hfix : g.ghr = fixedHistory o cfg.wG) (n : Nat) :
    ((Gshare.after cfg pc o)^[n] g).counter cfg pc = (fun c => ctrBump c o)^[n] (g.counter cfg pc) := by
  induction n with
  | zero => rfl
  | succ n ih =>
    have hfix' : ((Gshare.after cfg pc o)^[n] g).ghr = fixedHistory o cfg.wG := by
      rw [ghr_after_iterate_eq_fixed_iff hok]
      obtain ⟨-, hlt, -⟩ := predictorOk_gshare.mp hok
      exact ((eq_fixedHistory_iff o hlt).mp hfix).mul_left _
    obtain ⟨-, -, hwf⟩ := predictorOk_gshare.mp (after_iterate_ok (pc := pc) (o := o) hok n)
    rw [Function.iterate_succ_apply', Function.iterate_succ_apply', counter_after_of_fixed hwf hfix', ih]

/-- Two TRAINs at the fixed point make PREDICT follow the outcome (R103, R134). -/
theorem Gshare.reads_outcome_of_fixed (hfix : g.ghr = fixedHistory o cfg.wG) {n : Nat} (hn : 2 ≤ n) :
    ctrRead (((Gshare.after cfg pc o)^[n] g).counter cfg pc) = o := by
  obtain ⟨-, hreads, -⟩ := counterSaturatesAndStays (g.counter cfg pc) o
  rw [counter_after_iterate_of_fixed hok hfix]
  exact hreads n hn

/-- One TRAIN is enough where the counter is in a weak state (R103, R134). -/
theorem Gshare.reads_outcome_of_fixed_weak (hfix : g.ghr = fixedHistory o cfg.wG)
    (hweak : g.counter cfg pc = 1 ∨ g.counter cfg pc = 2) {n : Nat} (hn : 1 ≤ n) :
    ctrRead (((Gshare.after cfg pc o)^[n] g).counter cfg pc) = o := by
  obtain rfl | hn := Nat.eq_or_lt_of_le hn
  · rw [counter_after_iterate_of_fixed hok hfix, Function.iterate_one, ctrRead_ctrBump_of_weak hweak]
  · exact reads_outcome_of_fixed hok hfix hn

/-- From history 0 the first W_g Taken TRAINs use other counters than that of the fixed point: their histories have
fewer than W_g ones (R134). -/
theorem Gshare.lookup_fixed_after_iterate (hzero : g.ghr = 0) {n : Nat} (hn : n ≤ cfg.wG) :
    ((Gshare.after cfg pc true)^[n] g).pht.lookup 1 (gshareIdx cfg pc (fixedHistory true cfg.wG)) =
      g.pht.lookup 1 (gshareIdx cfg pc (fixedHistory true cfg.wG)) := by
  induction n with
  | zero => rfl
  | succ n ih =>
    obtain ⟨-, hlt, -⟩ := predictorOk_gshare.mp (after_iterate_ok (pc := pc) (o := true) hok n)
    have hne : ((Gshare.after cfg pc true)^[n] g).ghr ≠ fixedHistory true cfg.wG := by
      rw [ne_eq, ghr_after_iterate_eq_fixed_iff hok, hzero, Bool.toNat_true, Nat.mul_one,
        Nat.pow_dvd_pow_iff_le_right (Nat.lt_succ_self 1)]
      omega
    rw [Function.iterate_succ_apply', lookup_after_of_ghr_ne hlt (fixedHistory_lt _ _) hne, ih (Nat.le_of_succ_le hn)]

end

/-- From a fresh table W_g + 1 TRAINs are enough: the counter of the fixed point is still WeaklyNotTaken when the
history reaches it, which Not Taken TRAINs do at once and Taken ones after W_g (R134). -/
theorem Gshare.reads_outcome_of_fresh {cfg : Config} (hcfg : cfgOk cfg .gshare = true) (pc : Pc) (o : Bool) {n : Nat}
    (hn : cfg.wG + 1 ≤ n) :
    ctrRead (((Gshare.after cfg pc o)^[n] { ghr := 0, pht := [] }).counter cfg pc) = o := by
  have hok : predictorOk cfg (.gshare { ghr := 0, pht := [] }) = true := initPredictor_ok cfg .gshare hcfg
  cases o with
  | false => exact reads_outcome_of_fixed_weak hok rfl (.inl rfl) (by omega)
  | true =>
    obtain ⟨k, rfl⟩ := Nat.exists_eq_add_of_le' (Nat.le_of_succ_le hn)
    have hfix := ghr_after_iterate_of_le (pc := pc) (o := true) hok le_rfl
    have hcounter : ((Gshare.after cfg pc true)^[cfg.wG] { ghr := 0, pht := [] }).counter cfg pc = 1 := by
      rw [counter, hfix, lookup_fixed_after_iterate hok rfl le_rfl]
      rfl
    rw [Function.iterate_add_apply]
    exact reads_outcome_of_fixed_weak (after_iterate_ok hok _) hfix (.inl hcounter) (by omega)

/-! ### The run -/

/-- TRAINs of one branch apply R132's writes as often. -/
theorem issueAll_trainsOf {s : State} {g : Gshare} (hs : s.status = .ready) (hm : s.m = .gshare g) (pc : Pc) (o : Bool)
    (n : Nat) : ∃ s', issueAll (trainsOf pc o n) s = .next s' ∧ s'.cfg = s.cfg ∧ s'.status = .ready ∧
      s'.m = .gshare ((Gshare.after s.cfg pc o)^[n] g) := by
  induction n generalizing s g with
  | zero => exact ⟨s, rfl, rfl, hs, hm⟩
  | succ n ih =>
    have hfirst := (issue_decoded (decode_encode (.train pc o)) s).trans (exec_train_gshare hs hm pc o)
    obtain ⟨s', hrun, hcfg, hs', hm'⟩ :=
      ih (s := State.accept false { s with m := .gshare (g.after s.cfg pc o) }) hs rfl
    refine ⟨s', ?_, hcfg, hs', hm'⟩
    rw [trainsOf, List.replicate_succ, issueAll, hfirst]
    exact hrun

theorem exec_predict_response {s : State} {g : Gshare} {pc : Pc} {o : Bool} (hs : s.status = .ready)
    (hm : s.m = .gshare g) (hread : ctrRead (g.counter s.cfg pc) = o) :
    ∃ t, exec (.predict pc) s = .next t ∧ t.response = some (if o then 0b0001#4 else 0b0000#4) :=
  ⟨_, exec_predict_gshare hs hm pc, by rw [State.accept_response, hread, responseWord_accepted]⟩

/-- Settles O52: the run applies R132's writes `n` times; the history needs at most W_g of them, and the counter at the
fixed point the rest. -/
theorem gshareConvergesOnConstantBranch : Obligations.GshareConvergesOnConstantBranch := by
  intro s g pc o n hinv hs hm
  obtain ⟨-, -, hok⟩ := (State.inv_iff s).mp hinv
  rw [hm] at hok
  obtain ⟨s', hrun, hcfg, hs', hm'⟩ := issueAll_trainsOf hs hm pc o n
  have answers : ctrRead (((Gshare.after s.cfg pc o)^[n] g).counter s.cfg pc) = o →
      ∃ t, exec (.predict pc) s' = .next t ∧ t.response = some (if o then 0b0001#4 else 0b0000#4) :=
    fun hread => exec_predict_response hs' hm' (hcfg ▸ hread)
  refine ⟨s', _, hrun, hm', Gshare.ghr_after_iterate_of_le hok, fun hn => answers ?any,
    fun hfix hn hweak => answers ?weak, fun hn hfresh => answers ?fresh⟩
  case any =>
    obtain ⟨k, rfl⟩ := Nat.exists_eq_add_of_le' (show s.cfg.wG ≤ n by omega)
    rw [Function.iterate_add_apply]
    exact Gshare.reads_outcome_of_fixed (Gshare.after_iterate_ok hok _) (Gshare.ghr_after_iterate_of_le hok le_rfl)
      (by omega)
  case weak =>
    have hcounter : g.counter s.cfg pc = if o then 1 else 2 :=
      Option.some.inj ((g.tabRead_counter s.cfg pc).symm.trans hweak)
    refine Gshare.reads_outcome_of_fixed_weak hok hfix ?_ hn
    cases o with
    | false => exact .inr hcounter
    | true => exact .inl hcounter
  case fresh =>
    subst hfresh
    exact Gshare.reads_outcome_of_fresh (predictorOk_gshare.mp hok).1 pc o hn

end Sys2Proof.Machine
end

section
/-!
Tournament mode, command by command (R150 to R154): INIT's tables, the readings that PREDICT and TRAIN share, what
TRAIN writes, and how an entry of CHOOSER moves.
-/

namespace Sys2Proof.Machine

/-! ### The readings: the entries that `tournLets` names stand in their tables, at indices always in range (R62) -/

section
variable (cfg : Config) (pc : Pc) (t : Tournament)

theorem Tournament.tabRead_chooser :
    tabRead (chooserShape cfg) t.chooser (tournGidx cfg t.ghr) = some (tournLets cfg pc t).ch :=
  tabRead_of_lt (sh := chooserShape cfg) (tournGidx_lt cfg t.ghr)

theorem Tournament.tabRead_lht :
    tabRead (lhtShape cfg) t.lht (tournPcidx cfg pc) = some (tournLets cfg pc t).hist :=
  tabRead_of_lt (sh := lhtShape cfg) (tournPcidx_lt cfg pc)

theorem Tournament.tabRead_lpht :
    tabRead (lphtShape cfg) t.lpht (tournLidx cfg (tournLets cfg pc t).hist) = some (tournLets cfg pc t).lc :=
  tabRead_of_lt (sh := lphtShape cfg) (tournLidx_lt cfg _)

theorem Tournament.tabRead_gpht :
    tabRead (gphtShape cfg) t.gpht (tournGidx cfg t.ghr) = some (tournLets cfg pc t).gc :=
  tabRead_of_lt (sh := gphtShape cfg) (tournGidx_lt cfg t.ghr)

end

/-! ### The commands -/

section
variable {s : State} {t : Tournament} (hs : s.status = .ready) (hm : s.m = .tournament t)
include hs hm

theorem exec_predict_tournament (pc : Pc) :
    exec (.predict pc) s = .next (s.accept (chooserSelect (tournLets s.cfg pc t).ch
      (ctrRead (tournLets s.cfg pc t).lc) (ctrRead (tournLets s.cfg pc t).gc))) := by
  obtain ⟨-, -, -, htourn, -⟩ := exec_predict_ready hs pc
  exact (htourn t hm).trans (tournPredict_eq pc t s)

theorem exec_train_tournament (pc : Pc) (o : Bool) :
    exec (.train pc o) s =
      .next (State.accept false { s with m := .tournament (tournAfter s.cfg pc o t) }) := by
  obtain ⟨-, -, -, htourn, -⟩ := exec_train_ready hs pc o
  exact (htourn t hm).trans (tournTrain_eq pc o t s)

end

/-- An accepted command keeps the tournament's state, or is a TRAIN and applies R152's writes. -/
theorem Moves.tournament_cases {cfg : Config} {i : Instr} {t t' : Tournament} {b : Bool}
    (h : Moves cfg i (.tournament t) b (.tournament t')) :
    t' = t ∨ ∃ pc o, i = .train pc o ∧ t' = tournAfter cfg pc o t := by
  cases h with
  | tournPredict => exact .inl rfl
  | tournTrain pc o => exact .inr ⟨pc, o, rfl, rfl⟩

/-- A word issued to a READY block keeps the tournament's state, or is a TRAIN and applies R152's writes. -/
theorem issue_tournament_cases {c : Cmd} {s s' : State} {t t' : Tournament} (hs : s.status = .ready)
    (h : issue c s = .next s') (hm : s.m = .tournament t) (hm' : s'.m = .tournament t') :
    t' = t ∨ ∃ pc o, decode c = .ok (.train pc o) ∧ t' = tournAfter s.cfg pc o t := by
  obtain hkeep | ⟨huninit, -⟩ | ⟨-, i, b, hd, hmv⟩ := issue_m_cases h
  · exact .inl (Predictor.tournament.inj (hm'.symm.trans (hkeep.trans hm)))
  · cases hs.symm.trans huninit
  · rw [hm, hm'] at hmv
    obtain hkeep | ⟨pc, o, rfl, hafter⟩ := hmv.tournament_cases
    · exact .inl hkeep
    · exact .inr ⟨pc, o, hd, hafter⟩

/-! ### The entries that TRAIN writes: they read back, as every table is canonical (R21, R152) -/

/-- The invariant's part about `M`, for a block in tournament mode. -/
theorem State.tournament_ok {s : State} {t : Tournament} (hinv : s.inv = true) (hm : s.m = .tournament t) :
    predictorOk s.cfg (.tournament t) = true := by
  obtain ⟨-, -, hok⟩ := (State.inv_iff s).mp hinv
  exact hm ▸ hok

section
variable {cfg : Config} {t : Tournament} (hok : predictorOk cfg (.tournament t) = true) (pc : Pc) (o : Bool)
include hok

theorem tabRead_chooser_tournAfter :
    tabRead (chooserShape cfg) (tournAfter cfg pc o t).chooser (tournGidx cfg t.ghr) =
      some (chooserNext (tournLets cfg pc t).ch (ctrRead (tournLets cfg pc t).lc)
        (ctrRead (tournLets cfg pc t).gc) o) := by
  obtain ⟨-, -, -, -, -, -, hchooser⟩ := predictorOk_tournament.mp hok
  exact tabRead_store_same (sh := chooserShape cfg) hchooser (tournGidx_lt _ _)

omit hok in
/-- TRAIN leaves the other choosers as they were. -/
theorem tabRead_chooser_tournAfter_ne {j : Nat} (hj : j ≠ tournGidx cfg t.ghr) :
    tabRead (chooserShape cfg) (tournAfter cfg pc o t).chooser j = tabRead (chooserShape cfg) t.chooser j :=
  tabRead_store_ne (sh := chooserShape cfg) hj

theorem tabRead_gpht_tournAfter :
    tabRead (gphtShape cfg) (tournAfter cfg pc o t).gpht (tournGidx cfg t.ghr) =
      some (ctrBump (tournLets cfg pc t).gc o) := by
  obtain ⟨-, -, -, -, -, hgpht, -⟩ := predictorOk_tournament.mp hok
  exact tabRead_store_same (sh := gphtShape cfg) hgpht (tournGidx_lt _ _)

theorem tabRead_lpht_tournAfter :
    tabRead (lphtShape cfg) (tournAfter cfg pc o t).lpht (tournLidx cfg (tournLets cfg pc t).hist) =
      some (ctrBump (tournLets cfg pc t).lc o) := by
  obtain ⟨-, -, -, -, hlpht, -, -⟩ := predictorOk_tournament.mp hok
  exact tabRead_store_same (sh := lphtShape cfg) hlpht (tournLidx_lt _ _)

theorem tabRead_lht_tournAfter :
    tabRead (lhtShape cfg) (tournAfter cfg pc o t).lht (tournPcidx cfg pc) =
      some ((2 * (tournLets cfg pc t).hist + o.toNat) % 2 ^ cfg.wL) := by
  obtain ⟨-, -, hlht, -, -, -, -⟩ := predictorOk_tournament.mp hok
  rw [← histShift_eq]
  exact tabRead_store_same (sh := lhtShape cfg) hlht (tournPcidx_lt _ _)

end

/-! ### The chooser -/

/-- The selected sub-prediction is the reading of the selected counter (R100, R112). -/
theorem chooserSelect_ctrRead (ch lc gc : Counter) :
    chooserSelect ch (ctrRead lc) (ctrRead gc) = decide (2 ≤ if ch.toNat ≤ 1 then lc.toNat else gc.toNat) := by
  split
  case isTrue hlocal => exact chooserSelect_local hlocal _ _
  case isFalse hglobal => exact chooserSelect_global (by omega) _ _

/-- Everything R113 can answer: the same counter, or one step toward the side that alone was right. -/
theorem chooserNext_cases (ch : Counter) (lp gp o : Bool) :
    chooserNext ch lp gp o = ch ∨
    (gp = o ∧ lp ≠ o ∧ (chooserNext ch lp gp o).toNat = ch.toNat + 1) ∨
    (gp ≠ o ∧ lp = o ∧ (chooserNext ch lp gp o).toNat + 1 = ch.toNat) := by
  revert ch lp gp o
  decide

/-- Where the sub-predictions disagree, exactly one was right, and the counter moves toward it, clamped (R113). -/
theorem chooserNext_of_disagree (ch : Counter) {lp gp : Bool} (o : Bool) (h : lp ≠ gp) :
    (chooserNext ch lp gp o).toNat = if gp = o then min 3 (ch.toNat + 1) else ch.toNat - 1 := by
  split
  case isTrue hg => exact chooserNext_global_right ch hg (hg ▸ h)
  case isFalse hg =>
    have hl : lp = o := (Bool.eq_not.mpr h).trans (Bool.eq_not.mpr (Ne.symm hg)).symm  -- both differ from `gp`
    exact chooserNext_local_right ch hg hl

/-! ### The obligations -/

/-- The configuration check of tournament mode contains the ranges of its three widths (R217). -/
theorem widths_of_cfgOk_tournament {cfg : Config} (h : cfgOk cfg .tournament = true) :
    (1 ≤ cfg.wG ∧ cfg.wG ≤ 32) ∧ (1 ≤ cfg.wL ∧ cfg.wL ≤ 32) ∧ (1 ≤ cfg.wPc ∧ cfg.wPc ≤ 32) := by
  simp only [cfgOk, widthOk, Bool.and_eq_true, decide_eq_true_eq] at h
  obtain ⟨⟨⟨hG, hL⟩, hPc⟩, -⟩ := h
  exact ⟨hG, hL, hPc⟩

/-- Settles O26: INIT leaves four empty lists, each of which reads as its table's initial value in range. -/
theorem initTournamentBuildsItsTables : Obligations.InitTournamentBuildsItsTables := by
  intro s hs
  refine ⟨fun hok => ⟨{ ghr := 0, lht := [], lpht := [], gpht := [], chooser := [] }, ?accepted, rfl,
    fun i => rfl, fun i => rfl, fun i => rfl, fun i => rfl⟩, fun hno => ?rejected, fun hrange => ?outside⟩
  case accepted => exact (exec_initInstr .tournament s).trans (initAs_accepted hs hok)
  case rejected => exact (exec_initInstr .tournament s).trans (initAs_rejected hs hno)
  case outside => exact Bool.eq_false_iff.mpr fun hok => hrange (widths_of_cfgOk_tournament hok)

/-- Settles O31: `exec_predict_tournament`, with the indices as remainders. -/
theorem tournamentPredictSelectsByChooser : Obligations.TournamentPredictSelectsByChooser := by
  intro s t pc hs hm
  refine ⟨(tournLets s.cfg pc t).ch, (tournLets s.cfg pc t).lc, (tournLets s.cfg pc t).gc,
    (tournLets s.cfg pc t).hist, ?chooser, ?lht, ?lpht, ?gpht, ?response⟩
  case chooser => rw [← tournGidx_eq, t.tabRead_chooser s.cfg pc]
  case lht => rw [← tournPcidx_eq, t.tabRead_lht s.cfg pc]
  case lpht => rw [← tournLidx_eq, t.tabRead_lpht s.cfg pc]
  case gpht => rw [← tournGidx_eq, t.tabRead_gpht s.cfg pc]
  case response =>
    rw [exec_predict_tournament hs hm, State.accept, responseWord_accepted, chooserSelect_ctrRead]
    simp only [decide_eq_true_eq]

/-- Settles O32: `exec_train_tournament`; the tables are canonical, so what was written reads back, and no other entry
of a table is touched (R21). -/
theorem tournamentTrainUpdatesFromOldState : Obligations.TournamentTrainUpdatesFromOldState := by
  intro s t pc o hinv hs hm
  have hok := State.tournament_ok hinv hm
  refine ⟨(tournLets s.cfg pc t).ch, (tournLets s.cfg pc t).lc, (tournLets s.cfg pc t).gc,
    (tournLets s.cfg pc t).hist, tournAfter s.cfg pc o t,
    t.tabRead_chooser s.cfg pc, t.tabRead_lht s.cfg pc, t.tabRead_lpht s.cfg pc, t.tabRead_gpht s.cfg pc,
    exec_train_tournament hs hm pc o,
    tabRead_chooser_tournAfter hok pc o, tabRead_gpht_tournAfter hok pc o, tabRead_lpht_tournAfter hok pc o,
    tabRead_lht_tournAfter hok pc o, histShift_eq _ _ _,
    fun j hj => ⟨?otherChoosers, ?otherGlobals⟩, fun j hj => ?otherLocals, fun j hj => ?otherHistories⟩
  case otherChoosers => exact tabRead_chooser_tournAfter_ne pc o hj
  case otherGlobals => exact tabRead_store_ne (sh := gphtShape s.cfg) hj
  case otherLocals => exact tabRead_store_ne (sh := lphtShape s.cfg) hj
  case otherHistories => exact tabRead_store_ne (sh := lhtShape s.cfg) hj

/-- Settles O45: only a TRAIN changes the tournament's state, it writes one chooser entry, and `chooserNext_cases` says
where that entry can move. -/
theorem chooserEntriesMoveByOldPredictions : Obligations.ChooserEntriesMoveByOldPredictions := by
  intro c s s' t t' hinv hs h hm hm' j ch ch' hch hch'
  obtain rfl | ⟨pc, o, hd, rfl⟩ := issue_tournament_cases hs h hm hm'
  · exact .inl (Option.some.inj (hch'.symm.trans hch))
  by_cases hj : j = tournGidx s.cfg t.ghr
  case neg =>
    rw [tabRead_chooser_tournAfter_ne pc o hj] at hch'
    exact .inl (Option.some.inj (hch'.symm.trans hch))
  case pos =>
    subst hj
    have hok := State.tournament_ok hinv hm
    obtain rfl := Option.some.inj (hch.symm.trans (t.tabRead_chooser s.cfg pc))
    obtain rfl := Option.some.inj (hch'.symm.trans (tabRead_chooser_tournAfter hok pc o))
    exact (chooserNext_cases _ _ _ _).imp_right fun hmoved =>
      ⟨pc, o, _, _, _, hd, rfl, t.tabRead_lht s.cfg pc, t.tabRead_lpht s.cfg pc, t.tabRead_gpht s.cfg pc, hmoved⟩

/-- Settles O46: the chooser entry is `chooser_next` of the readings from before the TRAIN, so the bumped GPHT entry
of the example does not enter. -/
theorem chooserFollowsTheOldRightSide : Obligations.ChooserFollowsTheOldRightSide := by
  intro s t pc o ch lc gc h hinv hs hm hch hh hlc hgc hne
  obtain rfl := Option.some.inj (hch.symm.trans (t.tabRead_chooser s.cfg pc))
  obtain rfl := Option.some.inj (hh.symm.trans (t.tabRead_lht s.cfg pc))
  obtain rfl := Option.some.inj (hlc.symm.trans (t.tabRead_lpht s.cfg pc))
  obtain rfl := Option.some.inj (hgc.symm.trans (t.tabRead_gpht s.cfg pc))
  have hok := State.tournament_ok hinv hm
  have hmove := chooserNext_of_disagree (tournLets s.cfg pc t).ch o hne
  refine ⟨_, _, _, _, exec_train_tournament hs hm pc o, rfl, tabRead_chooser_tournAfter hok pc o,
    tabRead_gpht_tournAfter hok pc o, hmove, ?specExample⟩
  case specExample =>
    rintro ⟨hglobal, -, rfl⟩
    rw [hglobal] at hmove ⊢
    exact ⟨by decide, hmove⟩

end Sys2Proof.Machine
end

section
/-!
Perceptron mode, command by command (R180 to R183): INIT's state, the scratch that PREDICT writes, what TRAIN writes,
and which TRAINs after a right prediction touch W.
-/

namespace Sys2Proof.Machine

/-! ### INIT -/

/-- The state that `perc_init` leaves (R180). -/
def Perceptron.fresh (cfg : Config) : Perceptron :=
  { w := [], hist := List.replicate cfg.pH false, lastPred := false, needsTrain := false, scrValid := false,
    scrPc := 0, theta := pTheta cfg }

theorem percInit_eq_fresh (cfg : Config) : percInit cfg = .perceptron (Perceptron.fresh cfg) := rfl

/-- No row is listed after INIT, so each row in range reads as P_H + 1 zeros, which fit the window (R180). -/
theorem readRow_fresh (cfg : Config) (r : Nat) :
    readRow cfg (Perceptron.fresh cfg) r = if r < cfg.pN then some (List.replicate (cfg.pH + 1) 0) else none := by
  split
  case isTrue hr => exact readRow_eq_some.mpr ⟨hr, rfl, by simp [Perceptron.fresh]⟩
  case isFalse hr => exact Option.eq_none_iff_forall_ne_some.mpr fun row hrow => hr (readRow_eq_some.mp hrow).1

/-- The configuration check of the perceptron contains the ranges of P_H, P_N and P_WB (R217). -/
theorem ranges_of_cfgOk_custom {cfg : Config} (h : cfgOk cfg .custom = true) :
    1 ≤ cfg.pH ∧ 1 ≤ cfg.pN ∧ 1 ≤ cfg.pWb ∧ cfg.pWb ≤ 32 := by
  simp only [cfgOk, widthOk, Bool.and_eq_true, decide_eq_true_eq] at h
  obtain ⟨⟨⟨⟨⟨hH, hN⟩, hWb⟩, -⟩, -⟩, -⟩ := h
  exact ⟨hH, hN, hWb⟩

/-- Settles O27: INIT leaves `Perceptron.fresh`, whose rows `readRow_fresh` reads. -/
theorem initCustomBuildsItsTables : Obligations.InitCustomBuildsItsTables := by
  intro s hs
  refine ⟨fun hok => ⟨Perceptron.fresh s.cfg, ?accepted, pTheta_of_none, fun _ => pTheta_of_some,
    readRow_fresh s.cfg, rfl, rfl, rfl, rfl, rfl⟩, fun hno => ?rejected, fun hrange => ?outside⟩
  case accepted => exact (exec_initInstr .custom s).trans (initAs_accepted hs hok)
  case rejected => exact (exec_initInstr .custom s).trans (initAs_rejected hs hno)
  case outside => exact Bool.eq_false_iff.mpr fun hok => hrange (ranges_of_cfgOk_custom hok)

/-! ### The row of a pc, and R182's writes -/

/-- The row of W that a PREDICT or TRAIN of `pc` uses (R110). -/
def Perceptron.row (cfg : Config) (pc : Pc) (p : Perceptron) : WeightRow :=
  p.w.lookup (List.replicate (cfg.pH + 1) 0) (percIdx cfg pc)

/-- The perceptron's state after R182's writes: W changes only where the training condition holds, and the update
uses the old window. -/
def Perceptron.after (cfg : Config) (pc : Pc) (o : Bool) (p : Perceptron) : Perceptron :=
  { p with
    w := if percTrains o p then
        p.w.store (List.replicate (cfg.pH + 1) 0) (percIdx cfg pc) (percUpdate cfg (p.row cfg pc) p.hist o)
      else p.w,
    hist := windowShift p.hist o, scrValid := false }

theorem percPaired_iff {pc : Pc} {p : Perceptron} : percPaired pc p = true ↔ p.scrValid = true ∧ p.scrPc = pc := by
  simp [percPaired]

theorem percPaired_eq_false_iff {pc : Pc} {p : Perceptron} :
    percPaired pc p = false ↔ p.scrValid = false ∨ p.scrPc ≠ pc := by
  rw [Bool.eq_false_iff, ne_eq, percPaired_iff, not_and_or, Bool.not_eq_true]

theorem percTrains_iff {o : Bool} {p : Perceptron} :
    percTrains o p = true ↔ p.lastPred ≠ o ∨ p.needsTrain = true := by
  simp [percTrains]

theorem percTrains_eq_false_iff {o : Bool} {p : Perceptron} :
    percTrains o p = false ↔ p.lastPred = o ∧ p.needsTrain = false := by
  rw [Bool.eq_false_iff, ne_eq, percTrains_iff, not_or, not_not, Bool.not_eq_true]

/-- The invariant's part about `M`, for a block in perceptron mode. -/
theorem State.perceptron_ok {s : State} {p : Perceptron} (hinv : s.inv = true) (hm : s.m = .perceptron p) :
    predictorOk s.cfg (.perceptron p) = true := by
  obtain ⟨-, -, hok⟩ := (State.inv_iff s).mp hinv
  exact hm ▸ hok

section
variable {cfg : Config} {pc : Pc} {o : Bool} {p : Perceptron}

theorem Perceptron.after_w_of_not_trains (ht : percTrains o p = false) : (p.after cfg pc o).w = p.w := by
  simp [after, ht]

theorem Perceptron.after_w_of_trains (ht : percTrains o p = true) :
    (p.after cfg pc o).w =
      p.w.store (List.replicate (cfg.pH + 1) 0) (percIdx cfg pc) (percUpdate cfg (p.row cfg pc) p.hist o) := by
  simp [after, ht]

/-- TRAIN leaves the rows of other indices as they were (R182). -/
theorem Perceptron.tabRead_after_ne {j : Nat} (hj : j ≠ percIdx cfg pc) :
    tabRead (wShape cfg) (p.after cfg pc o).w j = tabRead (wShape cfg) p.w j := by
  cases ht : percTrains o p with
  | false => rw [after_w_of_not_trains ht]
  | true =>
    rw [after_w_of_trains ht]
    exact tabRead_store_ne (sh := wShape cfg) hj

variable (hok : predictorOk cfg (.perceptron p) = true)
include hok

/-- The row stands in W, at an index in range, and fits the window (R62). -/
theorem Perceptron.readRow_row : readRow cfg p (percIdx cfg pc) = some (p.row cfg pc) := readRow_ok hok pc

/-- W is canonical, so the updated row reads back (R21, R182). -/
theorem Perceptron.tabRead_after_of_trains (ht : percTrains o p = true) :
    tabRead (wShape cfg) (p.after cfg pc o).w (percIdx cfg pc) = some (percUpdate cfg (p.row cfg pc) p.hist o) := by
  obtain ⟨-, -, hwf, -, -, -⟩ := predictorOk_perceptron.mp hok
  obtain ⟨hlt, -, -⟩ := readRow_eq_some.mp (readRow_row (pc := pc) hok)
  rw [after_w_of_trains ht]
  exact tabRead_store_same (sh := wShape cfg) hwf hlt

/-- The updated row fits the shifted window, as neither the update nor the shift changes a length. -/
theorem Perceptron.readRow_after_of_trains (ht : percTrains o p = true) :
    readRow cfg (p.after cfg pc o) (percIdx cfg pc) = some (percUpdate cfg (p.row cfg pc) p.hist o) := by
  obtain ⟨hlt, hread⟩ := tabRead_eq_some.mp (tabRead_after_of_trains (pc := pc) hok ht)
  obtain ⟨-, -, hlen⟩ := readRow_eq_some.mp (readRow_row (pc := pc) hok)
  have hfits : (percUpdate cfg (p.row cfg pc) p.hist o).length = (p.after cfg pc o).hist.length + 1 := by
    rw [percUpdate_length, hlen]
    exact congrArg (· + 1) (windowShift_length p.hist o).symm
  exact readRow_eq_some.mpr ⟨hlt, hread, hfits⟩

/-- The state that PREDICT leaves has the invariant's part about `M` (R181). -/
theorem Perceptron.scratch_ok : predictorOk cfg (.perceptron (p.scratch pc (percOut (p.row cfg pc) p.hist))) = true :=
  (Moves.percPredict pc p _ (readRow_row hok)).predictorOk hok

end

/-! ### The commands -/

/-- A sequence goes on from the state that its first word answers. -/
theorem issueAll_cons_of_next {c : Cmd} {s s' : State} (h : issue c s = .next s') (cs : List Cmd) :
    issueAll (c :: cs) s = issueAll cs s' := by
  rw [issueAll, h]

section
variable {s : State} {p : Perceptron} (hs : s.status = .ready) (hm : s.m = .perceptron p)
include hs hm

theorem exec_train_unpaired {pc : Pc} (o : Bool) (hp : percPaired pc p = false) :
    exec (.train pc o) s = .next (s.raise .orderViolation (encode (.train pc o))) := by
  obtain ⟨-, -, -, -, hperc⟩ := exec_train_ready hs pc o
  exact (hperc p hm).trans (percTrain_unpaired hp)

variable (hok : predictorOk s.cfg (.perceptron p) = true)
include hok

theorem exec_predict_perceptron (pc : Pc) :
    exec (.predict pc) s = .next (State.accept (percPred (percOut (p.row s.cfg pc) p.hist))
      { s with m := .perceptron (p.scratch pc (percOut (p.row s.cfg pc) p.hist)) }) := by
  obtain ⟨-, -, -, -, hperc⟩ := exec_predict_ready hs pc
  exact (hperc p hm).trans (percPredict_eq (Perceptron.readRow_row hok))

theorem exec_train_paired {pc : Pc} (o : Bool) (hp : percPaired pc p = true) :
    exec (.train pc o) s = .next (State.accept false { s with m := .perceptron (p.after s.cfg pc o) }) := by
  obtain ⟨-, -, -, -, hperc⟩ := exec_train_ready hs pc o
  rw [hperc p hm]
  cases ht : percTrains o p with
  | false =>
    rw [percTrain_keeping hp ht, Perceptron.after, ht]
    rfl
  | true =>
    rw [percTrain_updating hp ht (Perceptron.readRow_row hok), Perceptron.after, ht]
    rfl

/-- A PREDICT and the TRAIN of its pc: the scratch is written and then consumed (R181, R182). -/
theorem issueAll_pairedStep_perceptron (pc : Pc) (o : Bool) :
    ∃ s', issueAll (pairedStep (pc, o)) s = .next s' ∧
      s'.m = .perceptron ((p.scratch pc (percOut (p.row s.cfg pc) p.hist)).after s.cfg pc o) := by
  have hpredict := (issue_decoded (decode_encode (.predict pc)) s).trans (exec_predict_perceptron hs hm hok pc)
  have htrain := exec_train_paired (pc := pc)
    (s := State.accept (percPred (percOut (p.row s.cfg pc) p.hist))
      { s with m := .perceptron (p.scratch pc (percOut (p.row s.cfg pc) p.hist)) })
    hs rfl (Perceptron.scratch_ok hok) o (percPaired_iff.mpr ⟨rfl, rfl⟩)
  rw [← issue_decoded (decode_encode (.train pc o))] at htrain
  exact ⟨_, (issueAll_cons_of_next hpredict _).trans (issueAll_cons_of_next htrain []), rfl⟩

end

/-- Settles O33: `exec_predict_perceptron`, with the flags written out. -/
theorem perceptronPredictWritesScratchOnly : Obligations.PerceptronPredictWritesScratchOnly := by
  intro s p pc hinv hs hm
  have hok := State.perceptron_ok hinv hm
  refine ⟨p.row s.cfg pc, Perceptron.readRow_row hok, ?_⟩
  rw [exec_predict_perceptron hs hm hok, State.accept, responseWord_accepted]
  simp only [percPred_eq_true_iff]
  rfl

/-- Settles O34: unpaired, TRAIN raises its fault; paired, it applies `Perceptron.after`, which writes W at one index
at most. -/
theorem perceptronTrainUpdatesOneRow : Obligations.PerceptronTrainUpdatesOneRow := by
  intro s p pc o hinv hs hm
  have hok := State.perceptron_ok hinv hm
  refine ⟨fun hunpaired => ?unpaired, fun hpaired => ⟨p.row s.cfg pc, (p.after s.cfg pc o).w,
    Perceptron.readRow_row hok, exec_train_paired hs hm hok o (percPaired_iff.mpr hpaired),
    fun hkeep => ?keeping, fun htrain => ?updating, fun j hj => Perceptron.tabRead_after_ne hj⟩⟩
  case unpaired =>
    rw [exec_train_unpaired hs hm o (percPaired_eq_false_iff.mpr hunpaired), encode_train]
    rfl
  case keeping => exact Perceptron.after_w_of_not_trains (percTrains_eq_false_iff.mpr hkeep)
  case updating => exact Perceptron.tabRead_after_of_trains hok (percTrains_iff.mpr htrain)

/-! ### The margin -/

/-- The margin is thin exactly where the magnitude of the sum is below P_THETA (R116). -/
theorem percNeeds_iff_natAbs_lt {theta y : Int} : percNeeds theta y = true ↔ (y.natAbs : Int) < theta := by
  rw [percNeeds_eq_true_iff]
  omega

/-- After a right prediction the training condition is the thin margin alone (R182). -/
theorem percTrains_scratch (p : Perceptron) (pc : Pc) (y : Int) :
    percTrains (percPred y) (p.scratch pc y) = percNeeds p.theta y := by
  simp [percTrains, Perceptron.scratch]

/-- A weight in range moves by one, unless it is at the bound in that direction (R115). -/
theorem laneStep_of_bounded {cfg : Config} {b : Int} (hb : wMin cfg ≤ b ∧ b ≤ wMax cfg) (o : Bool) :
    laneStep cfg b o =
      if o then (if b = wMax cfg then b else b + 1) else (if b = wMin cfg then b else b - 1) := by
  obtain ⟨hlo, hhi⟩ := hb
  cases o with
  | false =>
    rw [laneStep_down cfg hhi, if_neg (by decide)]
    split <;> omega
  | true =>
    rw [laneStep_up cfg hlo, if_pos rfl]
    split <;> omega

/-- Settles O53: after a right prediction TRAIN updates the row exactly on a thin margin, and its bias weight, which the
invariant keeps in range, moves as `laneStep_of_bounded` says. -/
theorem perceptronTrainsOnThinMargin : Obligations.PerceptronTrainsOnThinMargin := by
  intro s p pc row o hinv hs hm hrow ho
  have hok := State.perceptron_ok hinv hm
  obtain rfl := Option.some.inj (hrow.symm.trans (Perceptron.readRow_row hok))
  obtain ⟨s', hrun, hm'⟩ := issueAll_pairedStep_perceptron hs hm hok pc o
  have htrains := percTrains_scratch p pc (percOut (p.row s.cfg pc) p.hist)
  rw [percPred, ← ho] at htrains
  refine ⟨s', _, hrun, hm', fun hwide => ?wide, fun hthin => ?thin⟩
  case wide =>
    refine Perceptron.after_w_of_not_trains (htrains.trans (Bool.eq_false_iff.mpr fun hneeds => ?_))
    exact absurd (percNeeds_iff_natAbs_lt.mp hneeds) (not_lt.mpr hwide)
  case thin =>
    obtain ⟨-, -, hlen⟩ := readRow_eq_some.mp hrow
    have hbias : 0 < (p.row s.cfg pc).length := by omega
    obtain ⟨-, hmoved, -⟩ := perceptronUpdateMovesEachLane s.cfg _ p.hist o hlen
    have htrained := htrains.trans (percNeeds_iff_natAbs_lt.mpr hthin)
    exact ⟨_, (p.row s.cfg pc)[0], _, Perceptron.readRow_after_of_trains (Perceptron.scratch_ok hok) htrained,
      List.getElem?_eq_getElem hbias, hmoved _ (List.getElem?_eq_getElem hbias),
      laneStep_of_bounded (rowBounded_iff.mp (readRow_bounded hok hrow) _ (List.getElem_mem hbias)) o⟩

end Sys2Proof.Machine
end

section
/-!
The facade (R210 to R217): the step that serves one word of the port, MODE over the run, the configuration check, and
static mode.
-/

namespace Sys2Proof.Machine

/-! ### The step of one word (R210) -/

/-- The step takes the word off the port and issues it. -/
theorem step_of_command {s : State} {c : Cmd} {rest : List Input} (h : s.port = .command c :: rest) :
    step s = issue c { s with port := rest } := by
  simp only [step, serve, h]

/-- A word put at the head of the port is the next to be served, before whatever waits there. -/
theorem step_offer (c : Cmd) (s : State) : step (s.offer c) = issue c s := step_of_command (State.offer_port c s)

theorem withFetchWord_of_lt {w : Nat} (h : w < 2 ^ 40) (s : State) :
    s.withFetchWord 40 w = s.offer (BitVec.ofNat 40 w) := by
  rw [State.withFetchWord, Nat.mod_eq_of_lt h]

/-- Settles O7: the step issues the word at the head of the port, and `issue_decoded`, `issue_reserved` and
`issue_faulted` say what that does. -/
theorem stepRunsDecodedCommand : Obligations.StepRunsDecodedCommand := by
  intro s c rest hport
  rw [step_of_command hport]
  refine ⟨fun i hd => issue_decoded hd _, fun e hd hs => issue_reserved hd hs, fun e _ hs => ?ignored,
    fun w hw => ?fetched⟩
  case ignored => exact issue_faulted (s := { s with port := rest }) hs c
  case fetched => rw [withFetchWord_of_lt hw, step_offer]

/-! ### MODE over a run (R216) -/

@[simp] theorem mode_initPredictor (cfg : Config) (m : Mode) : (initPredictor cfg m).mode = some m := by
  cases m <;> rfl

/-- An INIT that leaves the block READY was accepted: a block that ignored or refused it is FAULTED (R211). -/
theorem m_of_init_ready {m : Mode} {s s' : State} (h : exec (initInstr m) s = .next s') (hready : s'.status = .ready) :
    s'.m = initPredictor s.cfg m := by
  by_cases hf : s.status = .faulted
  · rw [exec_faulted hf] at h
    obtain rfl := next_inj h
    exact absurd (hf.symm.trans hready) (by decide)
  · obtain ⟨-, hexec⟩ | ⟨-, -, hexec⟩ | ⟨-, -, hexec⟩ := exec_init_cases m s hf
    all_goals obtain rfl := next_inj (hexec.symm.trans h)
    case inl | inr.inr => cases hready
    case inr.inl => rfl

/-- No command takes the block back to UNINIT. -/
theorem issue_initialized {c : Cmd} {s s' : State} (hs : s.status ≠ .uninit) (h : issue c s = .next s') :
    s'.status ≠ .uninit := by
  obtain ⟨-, rfl⟩ | ⟨-, -, rfl⟩ | ⟨-, i, f, -, -, rfl⟩ | ⟨huninit, -⟩ | ⟨-, i, b, m', -, -, rfl⟩ := issue_cases h
  · exact hs
  · nofun
  · nofun
  · exact absurd huninit hs
  · exact hs

/-- Once the block is initialized, no command changes MODE: an INIT is not accepted any more, and an accepted PREDICT or
TRAIN stays in its mode. -/
theorem issue_mode {c : Cmd} {s s' : State} (hs : s.status ≠ .uninit) (h : issue c s = .next s') :
    s'.mode = s.mode := by
  obtain hkeep | ⟨huninit, -⟩ | ⟨-, i, b, -, hmv⟩ := issue_m_cases h
  · exact congrArg Predictor.mode hkeep
  · exact absurd huninit hs
  · exact hmv.mode_eq.1

/-- Settles O20: the block is initialized in mode `m` after the INIT, and `issue_initialized` and `issue_mode` keep
that. -/
theorem modeIsFixedForTheRun : Obligations.ModeIsFixedForTheRun := by
  intro s s₁ s₂ m cs hinit hready hrun
  have hmode : s₁.mode = some m := by rw [State.mode, m_of_init_ready hinit hready, mode_initPredictor]
  have hstart : s₁.status ≠ .uninit ∧ s₁.mode = some m := ⟨by rw [hready]; decide, hmode⟩
  have hend : s₂.status ≠ .uninit ∧ s₂.mode = some m :=
    issueAll_keeps (P := fun t => t.status ≠ .uninit ∧ t.mode = some m)
      (fun ⟨hs, hm⟩ h => ⟨issue_initialized hs h, (issue_mode hs h).trans hm⟩) hstart hrun
  exact hend.2

/-! ### The configuration check (R217) -/

theorem widthOk_iff {w : Nat} : widthOk w = true ↔ 1 ≤ w ∧ w ≤ 32 := by
  simp [widthOk]

theorem thetaOk_iff {cfg : Config} : thetaOk cfg = true ↔ ∀ t, cfg.pTheta = some t → 0 ≤ t := by
  cases h : cfg.pTheta <;> simp [thetaOk, h]

theorem fits_of_unbounded {cfg : Config} (h : cfg.capacity = none) (bits : Nat) : fits cfg bits = true := by
  simp [fits, h]

theorem fits_iff_of_bounded {cfg : Config} {cap : Nat} (h : cfg.capacity = some cap) {bits : Nat} :
    fits cfg bits = true ↔ bits ≤ cap := by
  simp [fits, h]

/-- The storage bits that the tables of a mode demand (R217; log 9). -/
def storageBits (cfg : Config) : Mode → Nat
  | .static => 0
  | .gshare => 2 * 2 ^ cfg.wG
  | .tournament => 2 ^ cfg.wPc * cfg.wL + 2 * (2 ^ cfg.wL + 2 * 2 ^ cfg.wG)
  | .custom => cfg.pN * (cfg.pH + 1) * cfg.pWb + cfg.pH

section
variable {cfg : Config} (h : cfg.capacity = none)
include h

theorem cfgOk_gshare_iff_of_unbounded : cfgOk cfg .gshare = true ↔ 1 ≤ cfg.wG ∧ cfg.wG ≤ 32 := by
  simp only [cfgOk, fits_of_unbounded h, Bool.and_true, widthOk_iff]

theorem cfgOk_tournament_iff_of_unbounded : cfgOk cfg .tournament = true ↔
    (1 ≤ cfg.wG ∧ cfg.wG ≤ 32) ∧ (1 ≤ cfg.wL ∧ cfg.wL ≤ 32) ∧ (1 ≤ cfg.wPc ∧ cfg.wPc ≤ 32) := by
  simp only [cfgOk, fits_of_unbounded h, Bool.and_true, Bool.and_eq_true, widthOk_iff, and_assoc]

theorem cfgOk_custom_iff_of_unbounded : cfgOk cfg .custom = true ↔
    1 ≤ cfg.pH ∧ 1 ≤ cfg.pN ∧ (1 ≤ cfg.pWb ∧ cfg.pWb ≤ 32) ∧ cfg.pMul < 2 ^ 32 ∧
    ∀ t, cfg.pTheta = some t → 0 ≤ t := by
  simp only [cfgOk, fits_of_unbounded h, Bool.and_true, Bool.and_eq_true, decide_eq_true_eq, widthOk_iff, thetaOk_iff,
    and_assoc]

end

/-- The check of a mode is its check without a bound on the capacity, and the capacity for its storage bits. -/
theorem cfgOk_iff_unbounded_and_fits {cfg : Config} {m : Mode} :
    cfgOk cfg m = true ↔ cfgOk { cfg with capacity := none } m = true ∧ fits cfg (storageBits cfg m) = true := by
  rw [← Bool.and_eq_true]
  cases m with
  | static => cases h : cfg.capacity <;> simp [cfgOk, storageBits, fits, h]
  | gshare | tournament | custom =>
    simp only [cfgOk, storageBits, fits_of_unbounded (cfg := { cfg with capacity := none }) rfl, Bool.and_true, thetaOk]

/-- Every mode but static keeps some state: counters, or a window of P_H outcomes, where the check asks P_H ≥ 1. -/
theorem storageBits_pos {cfg : Config} {m : Mode} (hm : m ≠ .static) (hok : cfgOk cfg m = true) :
    0 < storageBits cfg m := by
  cases m with
  | static => exact absurd rfl hm
  | gshare | tournament => simp [storageBits]
  | custom => exact Nat.add_pos_right _ (ranges_of_cfgOk_custom hok).1

/-- Settles O17: the checks of the modes without a bound, and `cfgOk_iff_unbounded_and_fits` for the capacity. -/
theorem configurationCheckByMode : Obligations.ConfigurationCheckByMode := by
  intro cfg
  refine ⟨rfl, fun hcap => ⟨cfgOk_gshare_iff_of_unbounded hcap, cfgOk_tournament_iff_of_unbounded hcap,
    cfgOk_custom_iff_of_unbounded hcap⟩, fun m hok => (cfgOk_iff_unbounded_and_fits.mp hok).1,
    fun hcap m hm => Bool.eq_false_iff.mpr fun hok => ?noStorage⟩
  case noStorage =>
    have hle : storageBits cfg m ≤ 0 := (fits_iff_of_bounded hcap).mp (cfgOk_iff_unbounded_and_fits.mp hok).2
    exact absurd (storageBits_pos hm hok) (not_lt.mpr hle)

/-! ### Static mode (R211, R214, R215) -/

/-- Settles O24: static passes the check under every configuration, so the INIT is accepted. -/
theorem initStaticCompletes : Obligations.InitStaticCompletes := by
  intro s hs
  exact (exec_initInstr .static s).trans (initAs_accepted hs rfl)

/-- Settles O28: the mode multiplexer selects the static predictor, which writes nothing but the response. -/
theorem staticModeAlwaysTaken : Obligations.StaticModeAlwaysTaken := by
  intro s pc o hs hm
  obtain ⟨-, hpredict, -, -, -⟩ := exec_predict_ready hs pc
  obtain ⟨-, htrain, -, -, -⟩ := exec_train_ready hs pc o
  exact ⟨hpredict hm, htrain hm⟩

end Sys2Proof.Machine
end

section
/-!
Exceptions (R230 to R242, R249): what one step of the port can do, that no state with the invariant stops the machine,
which check gives the fault, what a faulting command writes, and what a FAULTED block does.
-/

namespace Sys2Proof.Machine

/-! ### The inputs of the port (R249, R260) -/

theorem step_of_idle {s : State} (h : s.port = []) : step s = .next s := by
  simp only [step, serve, h]

theorem step_of_hardwareReset {s : State} {cfg : Config} {rest : List Input} (h : s.port = .hardwareReset cfg :: rest) :
    step s = .next (State.hardwareReset cfg { s with port := rest }) := by
  simp only [step, serve, h]

/-- Everything a step that answers a next state can have done: idled, reset the block, or issued a word. -/
theorem step_cases {s s' : State} (h : step s = .next s') :
    (s.port = [] ∧ s' = s) ∨
    (∃ cfg rest, s.port = .hardwareReset cfg :: rest ∧ s' = State.hardwareReset cfg { s with port := rest }) ∨
    (∃ c rest, s.port = .command c :: rest ∧ issue c { s with port := rest } = .next s') := by
  match hport : s.port with
  | [] => exact .inl ⟨rfl, next_inj (h.symm.trans (step_of_idle hport))⟩
  | .hardwareReset cfg :: rest =>
    exact .inr (.inl ⟨cfg, rest, rfl, next_inj (h.symm.trans (step_of_hardwareReset hport))⟩)
  | .command c :: rest => exact .inr (.inr ⟨c, rest, rfl, (step_of_command hport).symm.trans h⟩)

/-- Settles O8: of the three things a step can do, idling is the one without an input, and it changes nothing. -/
theorem nothingButInputsChangesState : Obligations.NothingButInputsChangesState := by
  refine ⟨fun s => step_of_idle, fun s s' h hchanged => ?_⟩
  obtain ⟨-, hidle⟩ | ⟨cfg, rest, hport, -⟩ | ⟨c, rest, hport, -⟩ := step_cases h
  · exact absurd hidle hchanged
  · exact ⟨rest, .inr ⟨cfg, hport⟩⟩
  · exact ⟨rest, .inl ⟨c, hport⟩⟩

/-! ### Progress (R236, R237) -/

section
variable {s : State} (hinv : s.inv = true)
include hinv

/-- `M` holds a value while the block is READY (R211). -/
theorem m_ne_absent_of_ready (hs : s.status = .ready) : s.m ≠ .absent := by
  obtain ⟨hlife, -, -⟩ := (State.inv_iff s).mp hinv
  intro hm
  simp [lifecycleOk, hs, State.mode, hm] at hlife

/-- In every mode the entry that a PREDICT reads is in its table (R62). -/
theorem exec_predict_progress (hs : s.status = .ready) (pc : Pc) : ∃ s', exec (.predict pc) s = .next s' := by
  cases hm : s.m with
  | absent => exact absurd hm (m_ne_absent_of_ready hinv hs)
  | static =>
    obtain ⟨-, hstatic, -⟩ := exec_predict_ready hs pc
    exact ⟨_, hstatic hm⟩
  | gshare g => exact ⟨_, exec_predict_gshare hs hm pc⟩
  | tournament t => exact ⟨_, exec_predict_tournament hs hm pc⟩
  | perceptron p => exact ⟨_, exec_predict_perceptron hs hm (State.perceptron_ok hinv hm) pc⟩

/-- In every mode the entries that a TRAIN reads and writes are in their tables (R62); in mode 3 it may fault before. -/
theorem exec_train_progress (hs : s.status = .ready) (pc : Pc) (o : Bool) :
    ∃ s', exec (.train pc o) s = .next s' := by
  cases hm : s.m with
  | absent => exact absurd hm (m_ne_absent_of_ready hinv hs)
  | static =>
    obtain ⟨-, hstatic, -⟩ := exec_train_ready hs pc o
    exact ⟨_, hstatic hm⟩
  | gshare g => exact ⟨_, exec_train_gshare hs hm pc o⟩
  | tournament t => exact ⟨_, exec_train_tournament hs hm pc o⟩
  | perceptron p =>
    cases hp : percPaired pc p with
    | false => exact ⟨_, exec_train_unpaired hs hm o hp⟩
    | true => exact ⟨_, exec_train_paired hs hm (State.perceptron_ok hinv hm) o hp⟩

theorem exec_progress (i : Instr) : ∃ s', exec i s = .next s' := by
  by_cases hf : s.status = .faulted
  · exact ⟨_, exec_faulted hf i⟩
  · obtain ⟨m, rfl⟩ | ⟨pc, rfl⟩ | ⟨pc, o, rfl⟩ := instr_cases i
    · obtain ⟨-, h⟩ | ⟨-, -, h⟩ | ⟨-, -, h⟩ := exec_init_cases m s hf
      all_goals exact ⟨_, h⟩
    · obtain hs | hs := status_cases s hf
      · exact ⟨_, exec_predict_uninit hs pc⟩
      · exact exec_predict_progress hinv hs pc
    · obtain hs | hs := status_cases s hf
      · exact ⟨_, exec_train_uninit hs pc o⟩
      · exact exec_train_progress hinv hs pc o

/-- Every word, RESERVED or legal, is answered (R210). -/
theorem issue_progress (c : Cmd) : ∃ s', issue c s = .next s' := by
  cases hd : decode c with
  | error e =>
    by_cases hf : s.status = .faulted
    · exact ⟨_, issue_faulted hf c⟩
    · exact ⟨_, issue_reserved hd hf⟩
  | ok i =>
    rw [issue_decoded hd]
    exact exec_progress hinv i

end

/-- Settles O58: idling and hardware reset always answer, and the invariant does not speak of the port, so
`issue_progress` answers the word that is taken off it. -/
theorem noStepStopsTheMachine : Obligations.NoStepStopsTheMachine := by
  intro s hinv
  match hport : s.port with
  | [] => exact ⟨s, step_of_idle hport⟩
  | .hardwareReset cfg :: rest => exact ⟨_, step_of_hardwareReset hport⟩
  | .command c :: rest =>
    rw [step_of_command hport]
    exact issue_progress (s := { s with port := rest }) hinv c

/-! ### The first check that applies (R238) -/

/-- Without a fault FAULT_CODE is 0 (R33). -/
theorem faultCode_eq_zero {s : State} (hinv : s.inv = true) (h : s.status ≠ .faulted) : s.faultCode = 0 := by
  obtain ⟨hlife, -, -⟩ := (State.inv_iff s).mp hinv
  obtain hs | hs := status_cases s h
  all_goals
    simp only [lifecycleOk, hs, Bool.and_eq_true, beq_iff_eq] at hlife
    obtain ⟨⟨-, hcode⟩, -⟩ := hlife
    exact hcode

/-- A word leaves the first check that applies in FAULT_CODE, and the block FAULTED exactly where there is one. -/
theorem issue_faultCode_status {c : Cmd} {s s' : State} (hinv : s.inv = true) (h : issue c s = .next s') :
    s'.faultCode = firstFault c s ∧ (s'.status = .faulted ↔ firstFault c s ≠ 0) := by
  obtain ⟨hs, rfl⟩ | ⟨hs, ⟨e, hd⟩, rfl⟩ | ⟨-, i, f, hd, hr, rfl⟩ | ⟨hs, m, hd, hc, rfl⟩ |
    ⟨hs, i, b, m', hd, hmv, rfl⟩ := issue_cases h
  · rw [firstFault_faulted hs]
    exact ⟨rfl, iff_of_true hs (faultCode_ne_zero hinv hs)⟩
  · rw [firstFault_reserved hs hd]
    exact ⟨rfl, iff_of_true rfl (by decide)⟩
  · rw [hr.firstFault_eq hd]
    exact ⟨rfl, iff_of_true rfl f.code_ne_zero⟩
  · rw [firstFault_init_accepted hs hd hc]
    exact ⟨faultCode_eq_zero (s := s) hinv (by simp [hs]), iff_of_false nofun (· rfl)⟩
  · rw [hmv.firstFault_eq hs hd]
    exact ⟨faultCode_eq_zero (s := s) hinv (by simp [hs]), iff_of_false (by simp [hs]) (· rfl)⟩

/-- Settles O18: the word is answered, and `issue_faultCode_status` says what the answer leaves. -/
theorem faultChecksFollowPriority : Obligations.FaultChecksFollowPriority := by
  intro c s hinv
  obtain ⟨s', h⟩ := issue_progress hinv c
  exact ⟨s', h, issue_faultCode_status hinv h⟩

/-! ### Fault entry (R231 to R234, R239, R240) -/

/-- A word that faults an unfaulted block enters one of the five faults, with that word in FAULT_CMD, and does nothing
else: a legal word is the encoding of its command. -/
theorem eq_raise_of_faults {c : Cmd} {s s' : State} (h : issue c s = .next s') (hs : s.status ≠ .faulted)
    (hs' : s'.status = .faulted) : ∃ f, s' = s.raise f c := by
  obtain ⟨hf, -⟩ | ⟨-, -, rfl⟩ | ⟨-, i, f, hd, -, rfl⟩ | ⟨-, m, -, -, rfl⟩ | ⟨-, i, b, m', -, -, rfl⟩ := issue_cases h
  · exact absurd hf hs
  · exact ⟨.reservedEncoding, rfl⟩
  · exact ⟨f, by rw [eq_encode_of_decode hd]⟩
  · cases hs'
  · exact absurd hs' hs

theorem FaultCause.code_cases (f : FaultCause) : f.code = 1 ∨ f.code = 2 ∨ f.code = 3 ∨ f.code = 4 ∨ f.code = 5 := by
  cases f <;> decide

/-- Settles O19: `eq_raise_of_faults`, with fault entry written out. -/
theorem faultsArePrecise : Obligations.FaultsArePrecise := by
  intro c s s' h hs hs'
  obtain ⟨f, rfl⟩ := eq_raise_of_faults h hs hs'
  exact ⟨rfl, f.code_cases⟩

/-- Settles O13: fault entry written out. -/
theorem reservedWordFaults : Obligations.ReservedWordFaults := fun _ _ _ hd hs => issue_reserved hd hs

/-- Settles O14: PREDICT and TRAIN raise NOT_INITIALIZED, and record their words. -/
theorem commandsBeforeInitFault : Obligations.CommandsBeforeInitFault := by
  intro s hs
  refine ⟨fun pc => ?predict, fun pc o => ?train⟩
  case predict =>
    rw [exec_predict_uninit hs, encode_predict]
    rfl
  case train =>
    rw [exec_train_uninit hs, encode_train]
    rfl

/-- Settles O15: an INIT of any mode raises REINIT, and records its word. -/
theorem secondInitFaults : Obligations.SecondInitFaults := by
  intro s m hs
  rw [exec_initInstr, initAs_ready hs, encode_initInstr]
  rfl

/-- Settles O16: a failed check raises CONFIG_INVALID, and the check of each mode contains the ranges that the mode
uses. -/
theorem initWithBadConfigurationFaults : Obligations.InitWithBadConfigurationFaults := by
  intro s m hs
  refine ⟨fun hno => ?rejected, fun hG => ⟨?gshare, ?tournament⟩, fun hLPc => ?tournamentLocal, fun hrange => ?custom⟩
  case rejected =>
    rw [exec_initInstr, initAs_rejected hs hno, encode_initInstr]
    rfl
  case gshare => exact Bool.eq_false_iff.mpr fun hok => hG (wG_range_of_cfgOk_gshare hok)
  case tournament => exact Bool.eq_false_iff.mpr fun hok => hG (widths_of_cfgOk_tournament hok).1
  case tournamentLocal =>
    refine Bool.eq_false_iff.mpr fun hok => hLPc ?_
    obtain ⟨-, ⟨hL, hL'⟩, hPc⟩ := widths_of_cfgOk_tournament hok
    exact ⟨hL, hL', hPc⟩
  case custom => exact Bool.eq_false_iff.mpr fun hok => hrange (ranges_of_cfgOk_custom hok)

/-! ### While FAULTED (R241, R242) -/

/-- A FAULTED block answers every word of a sequence with the stored code, and changes nothing but its response. -/
theorem issueAll_faulted (cs : List Cmd) {s : State} (h : s.status = .faulted) :
    ∃ s', issueAll cs s = .next s' ∧ s' = { s with response := s'.response } ∧
      responses cs s = List.replicate cs.length (some (s.faultCode ++ 0#1)) := by
  induction cs generalizing s with
  | nil => exact ⟨s, rfl, rfl, rfl⟩
  | cons c cs ih =>
    obtain ⟨s', hrun, hframe, hresp⟩ := ih (s := s.ignore) h
    refine ⟨s', (issueAll_cons_of_next (issue_faulted h c) cs).trans hrun, hframe, ?_⟩
    rw [responses, issue_faulted h, List.length_cons, List.replicate_succ, ← State.ignore_faultCode s, ← hresp]
    rfl

/-- Settles O11: one word is ignored, and so is every word of a sequence. -/
theorem faultedBlockIgnoresEveryCommand : Obligations.FaultedBlockIgnoresEveryCommand :=
  fun _ hs => ⟨issue_faulted hs, fun cs => issueAll_faulted cs hs⟩

/-- A step that takes a block out of FAULTED was a hardware reset: idling changes nothing, and a word is ignored. -/
theorem step_leaves_faulted {s s' : State} (hs : s.status = .faulted) (h : step s = .next s')
    (hs' : s'.status ≠ .faulted) :
    ∃ cfg rest, s.port = .hardwareReset cfg :: rest ∧ s' = State.hardwareReset cfg { s with port := rest } := by
  obtain ⟨-, rfl⟩ | hreset | ⟨c, rest, -, hissue⟩ := step_cases h
  · exact absurd hs hs'
  · exact hreset
  · obtain rfl := next_inj ((issue_faulted (s := { s with port := rest }) hs c).symm.trans hissue)
    exact absurd hs hs'

/-- Settles O12: after the reset the block is UNINIT, where PREDICT and TRAIN raise NOT_INITIALIZED. -/
theorem onlyHardwareResetLeavesFaulted : Obligations.OnlyHardwareResetLeavesFaulted := by
  intro s s' hs h hs'
  obtain ⟨cfg, rest, hport, rfl⟩ := step_leaves_faulted hs h hs'
  exact ⟨⟨cfg, rest, hport⟩, rfl, rfl, fun pc => ⟨_, exec_predict_uninit rfl pc, rfl⟩,
    fun pc o => ⟨_, exec_train_uninit rfl pc o, rfl⟩⟩

end Sys2Proof.Machine
end

section
/-!
Reset and hazards (R262, R264): a harness that boots the block in order and pairs each PREDICT with its TRAIN. After the
PREDICT of a pc no check applies to its TRAIN, so both are accepted, and an accepted command keeps the invariant; a run
is the INIT and such pairs.
-/

namespace Sys2Proof.Machine

/-! ### Accepted commands keep the invariant -/

theorem lifecycleOk_iff_of_ready {s : State} (hs : s.status = .ready) :
    lifecycleOk s = true ↔ s.mode.isSome = true ∧ s.faultCode = 0 ∧ s.faultCmd = 0 := by
  simp [lifecycleOk, hs, and_assoc]

/-- The response of an accepted command has FAULT = 0 and any PRED, as the invariant asks of a READY block (R87). -/
theorem State.accept_inv {s : State} (b : Bool) (hs : s.status = .ready)
    (hlife : s.mode.isSome = true ∧ s.faultCode = 0 ∧ s.faultCmd = 0) (hok : predictorOk s.cfg s.m = true) :
    (s.accept b).inv = true := by
  have hresp : responseOk (s.accept b) = true := by simp [responseOk, hs, hlife]
  exact (State.inv_iff _).mpr ⟨(lifecycleOk_iff_of_ready (s := s.accept b) hs).mpr hlife, hresp, hok⟩

/-- `Accepts i b s s'`: a READY block with the invariant goes from `s` to `s'` by accepting the PREDICT or TRAIN `i`,
with PRED = `b`. -/
structure Accepts (i : Instr) (b : Bool) (s s' : State) : Prop where
  moves : Moves s.cfg i s.m b s'.m
  issued : issue (encode i) s = .next s'
  response : s'.response = some (responseWord b 0)
  status : s'.status = .ready
  cfg : s'.cfg = s.cfg
  inv : s'.inv = true

theorem Accepts.mode_eq {i : Instr} {b : Bool} {s s' : State} (h : Accepts i b s s') : s'.mode = s.mode :=
  h.moves.mode_eq.1

/-- A command to which no check applies is accepted: of the outcomes of `exec_cases` no other starts from a READY block
without a fault. MODE and the fault record stay, and `M` stays a state of its mode, so the invariant does. -/
theorem exists_accepts {s : State} {i : Instr} (hinv : s.inv = true) (hs : s.status = .ready)
    (hfirst : firstFault (encode i) s = 0) : ∃ b s', Accepts i b s s' := by
  obtain ⟨s', hissue⟩ := issue_progress hinv (encode i)
  have hexec := (issue_decoded (decode_encode i) s).symm.trans hissue
  obtain ⟨hf, -⟩ | ⟨-, f, -, hr⟩ | ⟨hu, -⟩ | ⟨-, b, m', rfl, hmv⟩ := exec_cases hexec
  · cases hs.symm.trans hf
  · exact absurd ((hr.firstFault_eq (decode_encode i)).symm.trans hfirst) f.code_ne_zero
  · cases hs.symm.trans hu
  · obtain ⟨hlife, -, hok⟩ := (State.inv_iff s).mp hinv
    obtain ⟨hmode, hrecord⟩ := (lifecycleOk_iff_of_ready hs).mp hlife
    have hmode' : m'.mode.isSome = true := hmv.mode_eq.1 ▸ hmode
    exact ⟨b, _, hmv, hissue, rfl, hs, rfl, State.accept_inv b hs ⟨hmode', hrecord⟩ (hmv.predictorOk hok)⟩

/-! ### A PREDICT and its TRAIN (R264) -/

theorem Moves.pred_of_train {cfg : Config} {pc : Pc} {o b : Bool} {m m' : Predictor}
    (h : Moves cfg (.train pc o) m b m') : b = false := by
  cases h with
  | staticTrain | gshareTrain | tournTrain | percKeep | percAdjust => rfl

/-- After the PREDICT of a pc no check applies to its TRAIN: in mode 3 the scratch is of that pc (R181, R182, R235). -/
theorem Accepts.train_firstFault_eq_zero {pc : Pc} {b : Bool} {s s' : State} (h : Accepts (.predict pc) b s s')
    (o : Bool) : firstFault (encode (.train pc o)) s' = 0 := by
  have hmv := h.moves
  generalize hm : s'.m = m' at hmv
  generalize s.m = m at hmv
  cases hmv with
  | staticPredict | gsharePredict | tournPredict => exact firstFault_train h.status (decode_encode _) (by simp [hm])
  | percPredict _ p row =>
    have hpaired : percPaired pc (p.scratch pc (percOut row p.hist)) = true := percPaired_iff.mpr ⟨rfl, rfl⟩
    rw [firstFault_train_perceptron h.status (decode_encode _) hm, if_pos hpaired]

/-- A PREDICT and its TRAIN are both accepted. -/
theorem exists_accepts_pair {s : State} (pc : Pc) (o : Bool) (hinv : s.inv = true) (hs : s.status = .ready) :
    ∃ taken s₁ s₂, Accepts (.predict pc) taken s s₁ ∧ Accepts (.train pc o) false s₁ s₂ := by
  obtain ⟨taken, s₁, hpredict⟩ := exists_accepts hinv hs (firstFault_predict hs (decode_encode (.predict pc)))
  obtain ⟨b, s₂, htrain⟩ := exists_accepts hpredict.inv hpredict.status (hpredict.train_firstFault_eq_zero o)
  obtain rfl := htrain.moves.pred_of_train
  exact ⟨taken, s₁, s₂, hpredict, htrain⟩

/-- The responses go on from the state that the first word answers. -/
theorem responses_cons_of_next {c : Cmd} {s s' : State} (h : issue c s = .next s') (cs : List Cmd) :
    responses (c :: cs) s = s'.response :: responses cs s' := by
  rw [responses, h]

/-- Settles O59: both commands are accepted, and PRED of the first is the prediction of its mode. -/
theorem pairedStepNeverFaults : Obligations.PairedStepNeverFaults := by
  rintro s ⟨pc, o⟩ hinv hs
  obtain ⟨taken, s₁, s₂, hpredict, htrain⟩ := exists_accepts_pair pc o hinv hs
  have hrun := (issueAll_cons_of_next hpredict.issued _).trans (issueAll_cons_of_next htrain.issued [])
  have hresp := responses_cons_of_next hpredict.issued [encode (.train pc o)]
  rw [responses_cons_of_next htrain.issued, hpredict.response, htrain.response, responseWord_accepted,
    responseWord_accepted] at hresp
  exact ⟨s₂, taken, hrun, htrain.status, htrain.mode_eq.trans hpredict.mode_eq, htrain.cfg.trans hpredict.cfg,
    htrain.inv, faultCode_eq_zero htrain.inv (by simp [htrain.status]), hpredict.moves.prediction_eq, hresp⟩

/-! ### The whole run (R262) -/

/-- A run of words goes on from the state that its first part answers, with its responses after that part's. -/
theorem run_append_of_next (cs cs' : List Cmd) {s s' : State} (h : issueAll cs s = .next s') :
    issueAll (cs ++ cs') s = issueAll cs' s' ∧ responses (cs ++ cs') s = responses cs s ++ responses cs' s' := by
  induction cs generalizing s with
  | nil =>
    obtain rfl := next_inj h
    exact ⟨rfl, rfl⟩
  | cons c cs ih =>
    cases hc : issue c s with
    | next s₁ =>
      obtain ⟨hrun, hresp⟩ := ih ((issueAll_cons_of_next hc cs).symm.trans h)
      rw [List.cons_append, issueAll_cons_of_next hc, responses_cons_of_next hc, responses_cons_of_next hc, hrun, hresp]
      exact ⟨rfl, rfl⟩
    | fault r => simp [issueAll, hc] at h
    | refused r => simp [issueAll, hc] at h

/-- From a READY state with the invariant, a sequence of branches is the pairs of `pairedStepNeverFaults`. -/
theorem run_branches (branches : List (Pc × Bool)) {s : State} (hinv : s.inv = true) (hs : s.status = .ready) :
    ∃ s', issueAll (branches.flatMap pairedStep) s = .next s' ∧ s'.status = .ready ∧ s'.mode = s.mode ∧
      s'.faultCode = 0 ∧ (responses (branches.flatMap pairedStep) s).length = 2 * branches.length ∧
      ∀ r ∈ responses (branches.flatMap pairedStep) s, r = some 0b0000#4 ∨ r = some 0b0001#4 := by
  induction branches generalizing s with
  | nil => exact ⟨s, rfl, hs, rfl, faultCode_eq_zero hinv (by simp [hs]), rfl, nofun⟩
  | cons b bs ih =>
    obtain ⟨s₁, taken, hpair, hs₁, hmode₁, -, hinv₁, -, -, hresp₁⟩ := pairedStepNeverFaults s b hinv hs
    obtain ⟨s', hrest, hs', hmode, hcode, hlen, hvals⟩ := ih hinv₁ hs₁
    obtain ⟨hrun, hresp⟩ := run_append_of_next (pairedStep b) (bs.flatMap pairedStep) hpair
    rw [List.flatMap_cons, hresp, hresp₁]
    refine ⟨s', hrun.trans hrest, hs', hmode.trans hmode₁, hcode, ?length, fun r hr => ?values⟩
    case length =>
      simp only [List.length_append, List.length_cons, List.length_nil, hlen]
      omega
    case values =>
      simp only [List.cons_append, List.nil_append, List.mem_cons] at hr
      obtain rfl | rfl | hrest := hr
      · cases taken with
        | false => exact .inl rfl
        | true => exact .inr rfl
      · exact .inl rfl
      · exact hvals r hrest

/-- An INIT that is accepted after hardware reset leaves a READY block of its mode, with the invariant (R211, R261). -/
theorem issue_init_resetWith {cfg : Config} {m : Mode} (h : cfgOk cfg m = true) :
    ∃ s', issue (encode (initInstr m)) (State.resetWith cfg) = .next s' ∧ s'.inv = true ∧ s'.status = .ready ∧
      s'.mode = some m ∧ s'.response = some (responseWord false 0) := by
  have hinit := (issue_decoded (decode_encode (initInstr m)) (State.resetWith cfg)).trans
    ((exec_initInstr m _).trans (initAs_accepted rfl h))
  have hmode : (initPredictor cfg m).mode.isSome = true := by simp
  exact ⟨_, hinit, State.accept_inv false rfl ⟨hmode, rfl, rfl⟩ (initPredictor_ok cfg m h), rfl, mode_initPredictor cfg m,
    rfl⟩

/-- Settles O55: the INIT leaves a state that `run_branches` starts from. -/
theorem harnessContractNeverFaults : Obligations.HarnessContractNeverFaults := by
  intro cfg m branches hcfg
  obtain ⟨s₁, hinit, hinv, hs, hmode, hresp⟩ := issue_init_resetWith hcfg
  obtain ⟨s', hrun, hs', hmode', hcode, hlen, hvals⟩ := run_branches branches hinv hs
  rw [contractStream, responses_cons_of_next hinit, hresp, responseWord_accepted]
  refine ⟨s', (issueAll_cons_of_next hinit _).trans hrun, hs', hmode'.trans hmode, hcode, ?length, fun r hr => ?values⟩
  case length => rw [List.length_cons, hlen]
  case values =>
    obtain rfl | hbranch := List.mem_cons.mp hr
    · exact .inl rfl
    · exact hvals r hbranch

end Sys2Proof.Machine
end

section
/-!
The decoder over all words (R80, R85; spec/95_test_vectors.md section 2.11): it inverts the encoder both ways, and the
words of the decoding table, evaluated.
-/

namespace Sys2Proof.Machine

/-- Settles O2: `decode_eq_ok_iff`; every command is well formed, so that hypothesis is not used. -/
theorem decodeAndEncodeAgree : Obligations.DecodeAndEncodeAgree := fun _ _ _ => decode_eq_ok_iff

/-- Settles O1: each of the ten fixed words, evaluated. -/
theorem writtenWordsDecode : Obligations.WrittenWordsDecode :=
  ⟨rfl, rfl, rfl, rfl, rfl, rfl, rfl, rfl, rfl, rfl⟩

end Sys2Proof.Machine
end

section
/-!
Hardware reset and the invariant of the block (R30 to R36, R260, R261): the invariant holds after reset, and every step
keeps it. A step idles, resets the block or issues a word, and a word is ignored, faults or is accepted; a FAULTED block
is held to its fault record, a READY one to `M`.
-/

namespace Sys2Proof.Machine

/-! ### Hardware reset (R260, R261) -/

/-- Settles O9: the step serves the reset, which reads no field of the state but the rest of the port. -/
theorem hardwareResetClearsEverything : Obligations.HardwareResetClearsEverything :=
  fun _ _ _ hport => ⟨_, step_of_hardwareReset hport, rfl, rfl, rfl, rfl, rfl, rfl, rfl, rfl⟩

/-- Settles O10: the fields of the fixed reset state, evaluated. -/
theorem resetStateValues : Obligations.ResetStateValues := ⟨rfl, rfl, rfl, rfl, rfl⟩

theorem resetWith_inv (cfg : Config) : (State.resetWith cfg).inv = true :=
  (State.inv_iff _).mpr ⟨rfl, rfl, rfl⟩

/-- Settles O56: `State.reset` is the reset under one configuration. -/
theorem invariantHoldsAtReset : Obligations.InvariantHoldsAtReset := ⟨resetWith_inv Config.atReset, resetWith_inv⟩

/-! ### The life cycle (R30 to R35) -/

theorem lifecycleOk_iff_of_uninit {s : State} (hs : s.status = .uninit) :
    lifecycleOk s = true ↔ s.mode = none ∧ s.faultCode = 0 ∧ s.faultCmd = 0 := by
  simp [lifecycleOk, hs, and_assoc]

theorem lifecycleOk_of_faulted {s : State} (hs : s.status = .faulted) : lifecycleOk s = faultRecordOk s := by
  simp [lifecycleOk, hs]

/-- A FAULTED block that answers its stored code and PRED = 0 has the invariant where its fault record is right and `M`
is a state of its mode (R240, R241). -/
theorem State.inv_of_faulted {s : State} (hs : s.status = .faulted) (hrecord : faultRecordOk s = true)
    (hanswer : s.response = some (responseWord false s.faultCode)) (hok : predictorOk s.cfg s.m = true) :
    s.inv = true := by
  have hresp : responseOk s = true := by simp [responseOk, hanswer, hs]
  exact (State.inv_iff s).mpr ⟨(lifecycleOk_of_faulted hs).trans hrecord, hresp, hok⟩

/-! ### Fault entry leaves a right fault record (R230, R240) -/

@[simp] theorem State.raise_mode (f : FaultCause) (c : Cmd) (s : State) : (s.raise f c).mode = s.mode := rfl

theorem raise_reserved_faultRecordOk {c : Cmd} {e : DecodeError} (hd : decode c = .error e) (s : State) :
    faultRecordOk (s.raise .reservedEncoding c) = true := by
  simp [faultRecordOk, hd, FaultCause.code]

/-- The record names the command and its fault: in an UNINIT block there is no mode, in a READY one there is, and a
failed configuration check is not static's, which always passes. -/
theorem Raises.faultRecordOk {s : State} {i : Instr} {f : FaultCause} (h : Raises s i f)
    (hlife : lifecycleOk s = true) : Machine.faultRecordOk (s.raise f (encode i)) = true := by
  cases h with
  | reinit m hs =>
    obtain ⟨hsome, -⟩ := (lifecycleOk_iff_of_ready hs).mp hlife
    cases m with
    | static | gshare | tournament | custom =>
      simp [Machine.faultRecordOk, initInstr, FaultCause.code, hsome]
  | configInvalid m hs hc =>
    obtain ⟨hnone, -⟩ := (lifecycleOk_iff_of_uninit hs).mp hlife
    cases m with
    | static => cases hc
    | gshare | tournament | custom =>
      simp [Machine.faultRecordOk, initInstr, FaultCause.code, hnone, hc]
  | notInitialized _ hs hi =>
    obtain ⟨hnone, -⟩ := (lifecycleOk_iff_of_uninit hs).mp hlife
    cases i with
    | initStatic | initGshare | initTournament | initCustom => cases hi
    | predict | train => simp [Machine.faultRecordOk, FaultCause.code, hnone]
  | orderViolation pc o p hs hm hp =>
    have hcustom : s.mode = some .custom := congrArg Predictor.mode hm
    simp [Machine.faultRecordOk, FaultCause.code, hcustom]

/-! ### Every step keeps the invariant -/

/-- Every word keeps the invariant: `issue_predictorOk` keeps the part about `M`, a faulting word leaves a right fault
record, and an accepted one leaves a READY block with a mode and without a fault. -/
theorem issue_inv {c : Cmd} {s s' : State} (hinv : s.inv = true) (h : issue c s = .next s') : s'.inv = true := by
  obtain ⟨hlife, -, hok⟩ := (State.inv_iff s).mp hinv
  have hok' := issue_predictorOk hok h
  obtain ⟨hs, rfl⟩ | ⟨-, ⟨e, hd⟩, rfl⟩ | ⟨-, i, f, -, hr, rfl⟩ | ⟨hs, m, -, -, rfl⟩ | ⟨hs, i, b, m', -, hmv, rfl⟩ :=
    issue_cases h
  · exact State.inv_of_faulted hs ((lifecycleOk_of_faulted hs).symm.trans hlife) rfl hok'
  · exact State.inv_of_faulted rfl (raise_reserved_faultRecordOk hd s) rfl hok'
  · exact State.inv_of_faulted rfl (hr.faultRecordOk hlife) rfl hok'
  · obtain ⟨-, hrecord⟩ := (lifecycleOk_iff_of_uninit hs).mp hlife
    have hsome : (initPredictor s.cfg m).mode.isSome = true := by simp
    exact State.accept_inv false rfl ⟨hsome, hrecord⟩ hok'
  · obtain ⟨hmode, hrecord⟩ := (lifecycleOk_iff_of_ready hs).mp hlife
    have hsome : m'.mode.isSome = true := hmv.mode_eq.1 ▸ hmode
    exact State.accept_inv b hs ⟨hsome, hrecord⟩ hok'

/-- Settles O57: idling changes nothing, a hardware reset starts over, and the invariant does not speak of the port, so
`issue_inv` keeps it over the word that is taken off it. -/
theorem stepKeepsInvariant : Obligations.StepKeepsInvariant := by
  intro s s' hinv h
  obtain ⟨-, rfl⟩ | ⟨cfg, rest, -, rfl⟩ | ⟨c, rest, -, hissue⟩ := step_cases h
  · exact hinv
  · exact resetWith_inv cfg
  · exact issue_inv (s := { s with port := rest }) hinv hissue

end Sys2Proof.Machine
end
